-- ==== Sys2Proof/Word.lean ====
section
/-! DEFINITION. The word types of the core (00_scope.md R7, R9): bytes, 16-bit words, 12-bit addresses, register numbers.
All values are unsigned (R9). -/

namespace Sys2Proof

/-- An 8-bit value: a memory byte, a general register, a timer (R7 `REG_WIDTH`, `TIMER_WIDTH`). -/
abbrev Byte := BitVec 8

/-- A 16-bit value: the opcode, PC, I, a stack slot (R7 `INSN_WIDTH`, `PC_WIDTH`, `I_WIDTH`, `STACK_ENTRY_WIDTH`). -/
abbrev Word := BitVec 16

/-- The 12-bit immediate `nnn` (00_scope.md R11). -/
abbrev Imm12 := BitVec 12

/-- A general register's number, 0x0 (V0) to 0xF (VF). It is a 4-bit field, so it always names one of
the sixteen registers (10_state.md R101, R103). -/
abbrev Reg := Fin 16

end Sys2Proof
end

