-- ==== Sys2Proof/Syntax.lean ====
section
/-! DEFINITION. The instructions: one constructor per row of spec/opcode_table.json, with the fields that row names
(30_encoding.md R301 to R304). -/

namespace Sys2Proof

/-- The 34 instructions of the core (30_encoding.md R319; 00_scope.md R2). -/
inductive Instr where
  /-- `CLS`, 00E0 (R550) -/
  | cls
  /-- `RET`, 00EE (R401) -/
  | ret
  /-- `JP nnn`, 1nnn (R402) -/
  | jp (nnn : Imm12)
  /-- `CALL nnn`, 2nnn (R403) -/
  | call (nnn : Imm12)
  /-- `SE Vx, kk`, 3xkk (R404) -/
  | seVkk (x : Reg) (kk : Byte)
  /-- `SNE Vx, kk`, 4xkk (R405) -/
  | sneVkk (x : Reg) (kk : Byte)
  /-- `SE Vx, Vy`, 5xy0 (R406) -/
  | seVV (x y : Reg)
  /-- `LD Vx, kk`, 6xkk (R500) -/
  | ldVkk (x : Reg) (kk : Byte)
  /-- `ADD Vx, kk`, 7xkk (R452) -/
  | addVkk (x : Reg) (kk : Byte)
  /-- `LD Vx, Vy`, 8xy0 (R501) -/
  | ldVV (x y : Reg)
  /-- `OR Vx, Vy`, 8xy1 (R453) -/
  | or (x y : Reg)
  /-- `AND Vx, Vy`, 8xy2 (R454) -/
  | and (x y : Reg)
  /-- `XOR Vx, Vy`, 8xy3 (R455) -/
  | xor (x y : Reg)
  /-- `ADD Vx, Vy`, 8xy4 (R456) -/
  | addVV (x y : Reg)
  /-- `SUB Vx, Vy`, 8xy5 (R457) -/
  | sub (x y : Reg)
  /-- `SHR Vx`, 8xy6; y is encoded and ignored (R458) -/
  | shr (x y : Reg)
  /-- `SUBN Vx, Vy`, 8xy7 (R459) -/
  | subn (x y : Reg)
  /-- `SHL Vx`, 8xyE; y is encoded and ignored (R460) -/
  | shl (x y : Reg)
  /-- `SNE Vx, Vy`, 9xy0 (R407) -/
  | sneVV (x y : Reg)
  /-- `LD I, nnn`, Annn (R502) -/
  | ldI (nnn : Imm12)
  /-- `JP V0, nnn`, Bnnn (R410) -/
  | jpV0 (nnn : Imm12)
  /-- `RND Vx, kk`, Cxkk (R503) -/
  | rnd (x : Reg) (kk : Byte)
  /-- `DRW Vx, Vy, n`, Dxyn; n is a count of sprite rows, 0 to 15 (R552, R303) -/
  | drw (x y : Reg) (n : Fin 16)
  /-- `SKP Vx`, Ex9E (R408) -/
  | skp (x : Reg)
  /-- `SKNP Vx`, ExA1 (R409) -/
  | sknp (x : Reg)
  /-- `LD Vx, DT`, Fx07 (R610) -/
  | ldVDt (x : Reg)
  /-- `LD Vx, K`, Fx0A (R611) -/
  | ldVKey (x : Reg)
  /-- `LD DT, Vx`, Fx15 (R612) -/
  | ldDtV (x : Reg)
  /-- `LD ST, Vx`, Fx18 (R613) -/
  | ldStV (x : Reg)
  /-- `ADD I, Vx`, Fx1E (R614) -/
  | addIV (x : Reg)
  /-- `LD F, Vx`, Fx29 (R615) -/
  | ldFV (x : Reg)
  /-- `LD B, Vx`, Fx33 (R616) -/
  | ldBV (x : Reg)
  /-- `LD [I], Vx`, Fx55 (R617) -/
  | ldMiV (x : Reg)
  /-- `LD Vx, [I]`, Fx65 (R618) -/
  | ldVMi (x : Reg)
  deriving DecidableEq, Repr

end Sys2Proof
end

