-- ==== Sys2Proof/WellFormed.lean ====
section
/-! DEFINITION. Well-formed instructions: every operand, read as a number, fits the field its format gives it
(30_encoding.md R301 to R303). The operand types of Syntax.lean already carry these bounds (10_state.md R103: an
out-of-range register number can never occur), so every term of `Instr` passes; the checks themselves are on numbers,
and they refuse a number that does not fit. -/

namespace Sys2Proof.WellFormed

/-- A register number x or y fits its 4-bit field (10_state.md R101, R103). -/
def regNumber (n : Nat) : Bool := decide (n < 16)

/-- An immediate kk fits its 8-bit field (30_encoding.md R303). -/
def immByte (n : Nat) : Bool := decide (n < 256)

/-- An address nnn fits its 12-bit field (30_encoding.md R303). -/
def imm12 (n : Nat) : Bool := decide (n < 4096)

/-- A row count n fits its 4-bit field (30_encoding.md R303). -/
def rowCount (n : Nat) : Bool := decide (n < 16)

end Sys2Proof.WellFormed

namespace Sys2Proof

open WellFormed in
/-- Every operand of the instruction fits its field (30_encoding.md R301). -/
def Instr.wellFormed : Instr → Bool
  | .cls | .ret => true
  | .jp nnn | .call nnn | .ldI nnn | .jpV0 nnn => imm12 nnn.toNat
  | .seVkk x kk | .sneVkk x kk | .ldVkk x kk | .addVkk x kk | .rnd x kk => regNumber x.val && immByte kk.toNat
  | .seVV x y | .sneVV x y | .ldVV x y | .or x y | .and x y | .xor x y | .addVV x y | .sub x y | .shr x y
  | .subn x y | .shl x y => regNumber x.val && regNumber y.val
  | .drw x y n => regNumber x.val && regNumber y.val && rowCount n.val
  | .skp x | .sknp x | .ldVDt x | .ldVKey x | .ldDtV x | .ldStV x | .addIV x | .ldFV x | .ldBV x | .ldMiV x
  | .ldVMi x => regNumber x.val

end Sys2Proof
end

