-- ==== Sys2Proof/Decode.lean ====
section
/-! DEFINITION. The fields of an instruction word, the two-level decoder (30_encoding.md R310 to R318), the encoder
(the canonical words of R319) and the bits the decoder ignores (R301). -/

namespace Sys2Proof

/-! ## Fields (00_scope.md R11, 30_encoding.md R302) -/

/-- The primary opcode, `op[15:12]` (R11). -/
def fieldPrimary (op : Word) : BitVec 4 := op.extractLsb' 12 4

/-- `x = op[11:8]` (R11). -/
def fieldX (op : Word) : Reg := (op.extractLsb' 8 4).toFin

/-- `y = op[7:4]` (R11). -/
def fieldY (op : Word) : Reg := (op.extractLsb' 4 4).toFin

/-- `n = op[3:0]` (R11) as the secondary key of families 0x0, 0x8 and 0xE (R310). -/
def fieldKey (op : Word) : BitVec 4 := op.extractLsb' 0 4

/-- `n = op[3:0]` (R11) as the row count of `Dxyn` (R303). -/
def fieldN (op : Word) : Fin 16 := (fieldKey op).toFin

/-- `kk = op[7:0]` (R11). -/
def fieldKk (op : Word) : Byte := op.extractLsb' 0 8

/-- `nnn = op[11:0]` (R11). -/
def fieldNnn (op : Word) : Imm12 := op.extractLsb' 0 12

/-! ## The decoder -/

/-- Why bytes are no instruction, by name. -/
inductive DecodeError where
  /-- no handler is registered for the decoded key (30_encoding.md R311, R317) -/
  | unknownOpcode
  /-- fewer than the two bytes of an instruction word (30_encoding.md R300) -/
  | truncated
  deriving DecidableEq, Repr

/-- Family 0x0, keyed on the low nibble (R312). -/
def decodeFamily0 (op : Word) : Except DecodeError Instr :=
  match fieldKey op with
  | 0x0#4 => .ok .cls
  | 0xE#4 => .ok .ret
  | _ => .error .unknownOpcode

/-- Family 0x8, keyed on the low nibble (R313). -/
def decodeFamily8 (op : Word) : Except DecodeError Instr :=
  match fieldKey op with
  | 0x0#4 => .ok (.ldVV (fieldX op) (fieldY op))
  | 0x1#4 => .ok (.or (fieldX op) (fieldY op))
  | 0x2#4 => .ok (.and (fieldX op) (fieldY op))
  | 0x3#4 => .ok (.xor (fieldX op) (fieldY op))
  | 0x4#4 => .ok (.addVV (fieldX op) (fieldY op))
  | 0x5#4 => .ok (.sub (fieldX op) (fieldY op))
  | 0x6#4 => .ok (.shr (fieldX op) (fieldY op))
  | 0x7#4 => .ok (.subn (fieldX op) (fieldY op))
  | 0xE#4 => .ok (.shl (fieldX op) (fieldY op))
  | _ => .error .unknownOpcode

/-- Family 0xE, keyed on the low nibble (R314). -/
def decodeFamilyE (op : Word) : Except DecodeError Instr :=
  match fieldKey op with
  | 0xE#4 => .ok (.skp (fieldX op))
  | 0x1#4 => .ok (.sknp (fieldX op))
  | _ => .error .unknownOpcode

/-- Family 0xF, keyed on the low byte (R315). -/
def decodeFamilyF (op : Word) : Except DecodeError Instr :=
  match fieldKk op with
  | 0x07#8 => .ok (.ldVDt (fieldX op))
  | 0x0A#8 => .ok (.ldVKey (fieldX op))
  | 0x15#8 => .ok (.ldDtV (fieldX op))
  | 0x18#8 => .ok (.ldStV (fieldX op))
  | 0x1E#8 => .ok (.addIV (fieldX op))
  | 0x29#8 => .ok (.ldFV (fieldX op))
  | 0x33#8 => .ok (.ldBV (fieldX op))
  | 0x55#8 => .ok (.ldMiV (fieldX op))
  | 0x65#8 => .ok (.ldVMi (fieldX op))
  | _ => .error .unknownOpcode

/-- The first level: a 16-way selection on `op[15:12]` (R310). Total on all 65536 words. -/
def decodeWord (op : Word) : Except DecodeError Instr :=
  match fieldPrimary op with
  | 0x0#4 => decodeFamily0 op
  | 0x1#4 => .ok (.jp (fieldNnn op))
  | 0x2#4 => .ok (.call (fieldNnn op))
  | 0x3#4 => .ok (.seVkk (fieldX op) (fieldKk op))
  | 0x4#4 => .ok (.sneVkk (fieldX op) (fieldKk op))
  | 0x5#4 => .ok (.seVV (fieldX op) (fieldY op))
  | 0x6#4 => .ok (.ldVkk (fieldX op) (fieldKk op))
  | 0x7#4 => .ok (.addVkk (fieldX op) (fieldKk op))
  | 0x8#4 => decodeFamily8 op
  | 0x9#4 => .ok (.sneVV (fieldX op) (fieldY op))
  | 0xA#4 => .ok (.ldI (fieldNnn op))
  | 0xB#4 => .ok (.jpV0 (fieldNnn op))
  | 0xC#4 => .ok (.rnd (fieldX op) (fieldKk op))
  | 0xD#4 => .ok (.drw (fieldX op) (fieldY op) (fieldN op))
  | 0xE#4 => decodeFamilyE op
  | 0xF#4 => decodeFamilyF op
  | _ => .error .unknownOpcode

/-- The word of two bytes, big-endian: the byte at the lower address holds bits 15 to 8 (20_memory.md R206). -/
def wordOfBytes (hi lo : Byte) : Word := hi ++ lo

/-- The byte at the lower address of a word in memory (20_memory.md R206). -/
def highByte (w : Word) : Byte := w.extractLsb' 8 8

/-- The byte at the higher address of a word in memory (20_memory.md R206). -/
def lowByte (w : Word) : Byte := w.extractLsb' 0 8

/-- Decoding on any bytes: the instruction of the first two, and the rest; total, rejecting by name
(30_encoding.md R300, R311). -/
def decodeBytes : List Byte → Except DecodeError (Instr × List Byte)
  | hi :: lo :: rest =>
    match decodeWord (wordOfBytes hi lo) with
    | .ok i => .ok (i, rest)
    | .error e => .error e
  | _ => .error .truncated

/-! ## The encoder -/

/-- A register number or a row count as its 4-bit field (R302). -/
def nibble (r : Fin 16) : BitVec 4 := BitVec.ofFin r

/-- Format `NNN` (R301). -/
def wordNnn (primary : BitVec 4) (nnn : Imm12) : Word := primary ++ nnn

/-- Format `XKK` (R301). -/
def wordXkk (primary : BitVec 4) (x : Reg) (kk : Byte) : Word := primary ++ nibble x ++ kk

/-- Formats `XY_`, `XYK` and `XYN` (R301): the last nibble is ignored, a sub-key or the row count. -/
def wordXyn (primary : BitVec 4) (x y : Reg) (n : BitVec 4) : Word :=
  primary ++ nibble x ++ nibble y ++ n

/-- The canonical word of an instruction: the "word" column of 30_encoding.md R319, ignored bits as there. -/
def encode : Instr → Word
  | .cls => 0x00E0#16
  | .ret => 0x00EE#16
  | .jp nnn => wordNnn 0x1#4 nnn
  | .call nnn => wordNnn 0x2#4 nnn
  | .seVkk x kk => wordXkk 0x3#4 x kk
  | .sneVkk x kk => wordXkk 0x4#4 x kk
  | .seVV x y => wordXyn 0x5#4 x y 0x0#4
  | .ldVkk x kk => wordXkk 0x6#4 x kk
  | .addVkk x kk => wordXkk 0x7#4 x kk
  | .ldVV x y => wordXyn 0x8#4 x y 0x0#4
  | .or x y => wordXyn 0x8#4 x y 0x1#4
  | .and x y => wordXyn 0x8#4 x y 0x2#4
  | .xor x y => wordXyn 0x8#4 x y 0x3#4
  | .addVV x y => wordXyn 0x8#4 x y 0x4#4
  | .sub x y => wordXyn 0x8#4 x y 0x5#4
  | .shr x y => wordXyn 0x8#4 x y 0x6#4
  | .subn x y => wordXyn 0x8#4 x y 0x7#4
  | .shl x y => wordXyn 0x8#4 x y 0xE#4
  | .sneVV x y => wordXyn 0x9#4 x y 0x0#4
  | .ldI nnn => wordNnn 0xA#4 nnn
  | .jpV0 nnn => wordNnn 0xB#4 nnn
  | .rnd x kk => wordXkk 0xC#4 x kk
  | .drw x y n => wordXyn 0xD#4 x y (nibble n)
  | .skp x => wordXkk 0xE#4 x 0x9E#8
  | .sknp x => wordXkk 0xE#4 x 0xA1#8
  | .ldVDt x => wordXkk 0xF#4 x 0x07#8
  | .ldVKey x => wordXkk 0xF#4 x 0x0A#8
  | .ldDtV x => wordXkk 0xF#4 x 0x15#8
  | .ldStV x => wordXkk 0xF#4 x 0x18#8
  | .addIV x => wordXkk 0xF#4 x 0x1E#8
  | .ldFV x => wordXkk 0xF#4 x 0x29#8
  | .ldBV x => wordXkk 0xF#4 x 0x33#8
  | .ldMiV x => wordXkk 0xF#4 x 0x55#8
  | .ldVMi x => wordXkk 0xF#4 x 0x65#8

/-- The bits of the instruction's word that take no part in decoding (R301 "ignored"; R312, R314, R316). The ignored
`y` of `8xy6` and `8xyE` is a field of the opcode table's row, so it is not among them. -/
def ignoredBits : Instr → Word
  | .cls | .ret => 0x0FF0#16
  | .seVV _ _ | .sneVV _ _ => 0x000F#16
  | .skp _ | .sknp _ => 0x00F0#16
  | .jp _ | .call _ | .ldI _ | .jpV0 _ | .seVkk _ _ | .sneVkk _ _ | .ldVkk _ _ | .addVkk _ _ | .rnd _ _
  | .ldVV _ _ | .or _ _ | .and _ _ | .xor _ _ | .addVV _ _ | .sub _ _ | .shr _ _ | .subn _ _ | .shl _ _
  | .drw _ _ _ | .ldVDt _ | .ldVKey _ | .ldDtV _ | .ldStV _ | .addIV _ | .ldFV _ | .ldBV _ | .ldMiV _
  | .ldVMi _ => 0x0000#16

/-! ## The opcode table's numbering -/

/-- The one instruction word of the table's numbering: every row is one 16-bit word, bit 0 its least significant
bit; the bits at and above `nbits` are 0. -/
def tableWord (nbits w : Nat) : Word := BitVec.ofNat 16 (w % 2 ^ nbits)

/-- The instruction the decoder reads from a word of spec/opcode_table.json, laid out as the hardware stores it
(20_memory.md R206); none where the decoder refuses. -/
def decodeTableWord (nbits w : Nat) : Option Instr :=
  match decodeBytes [highByte (tableWord nbits w), lowByte (tableWord nbits w)] with
  | .ok (i, _) => some i
  | .error _ => none

end Sys2Proof
end

