-- ==== Sys2Proof/Config.lean ====
section
/-! DEFINITION. What is fixed for the machine: the parameters of 00_scope.md R7, and the two open parameters of
00_scope.md R8 that no state holds, as constants without a body (free values: nothing can evaluate them, so a claim
holds whatever they are). The third open parameter, `FONT_ROM`, is memory contents (Machine/Font.lean, log entry 5). -/

namespace Sys2Proof

/-- What `Fx29` computes for a register above 0x0F (00_scope.md R8, 92_eei_decisions.md D16). -/
inductive FontHighDigit where
  /-- use the low four bits of Vx -/
  | mask
  /-- use Vx as it is -/
  | linear
  deriving DecidableEq, Repr, Inhabited

/-- `FONT_HIGH_DIGIT` (00_scope.md R8): the implementation's choice, left free (log entry 4). -/
opaque Config.fontHighDigit : FontHighDigit

/-- `rnd` (00_scope.md R8, 60_exceptions.md R734): the byte of the k-th random draw, left free (log entry 3). -/
opaque Config.rnd : Nat → Byte

/-- `MEM_SIZE` (00_scope.md R7). -/
abbrev Config.memSize : Nat := 4096

/-- `FONT_BASE` (00_scope.md R7). -/
abbrev Config.fontBase : Nat := 0x050

/-- `FONT_SIZE` (00_scope.md R7): the font lies at 0x050 to 0x09F. -/
abbrev Config.fontSize : Nat := 80

/-- `PROG_BASE` (00_scope.md R7), also the initial PC. -/
abbrev Config.progBase : Nat := 0x200

/-- `PROG_MAX` (00_scope.md R7): 4096 - 0x200. -/
abbrev Config.progMax : Nat := 3584

end Sys2Proof
end

