-- ==== Sys2Proof/Machine/State.lean ====
section
/-! DEFINITION. The architectural state (10_state.md R100), plain data, and its value after reset (R119). -/

namespace Sys2Proof.Machine

/-- The reasons a step could stop outside the machine's own state. THERE IS NONE: each of the core's faults is a
state change (60_exceptions.md R704: the cycle is undone and HALT is set), so a step answers a next state (log
entry 1). Safe. -/
inductive Fault where
  deriving DecidableEq, Repr

/-- The reasons the model gives an instruction no meaning. -/
inductive Refusal where
  /-- Raised by `exec` for an instruction that has no meaning yet. No arm raises it: every instruction of the table
  has its meaning. Safe. -/
  | notModelled (mnemonic : String)
  deriving DecidableEq, Repr

/-- The six fatal conditions (60_exceptions.md R702). They are values of the fault latch, not stops of the model. -/
inductive FaultCode where
  /-- code 1, decode of a word with no instruction (R709) -/
  | unknownOpcode
  /-- code 2, `2nnn` with SP = 16 (R710) -/
  | stackOverflow
  /-- code 3, `00EE` with SP = 0 (R711) -/
  | stackUnderflow
  /-- code 4, an address of 4096 or above: fetch, `Dxyn`, `Fx33`, `Fx55`, `Fx65` (R712) -/
  | memoryOutOfRange
  /-- code 5, `Ex9E` or `ExA1` with V[x] > 15 (R713) -/
  | keyIndexOutOfRange
  /-- code 6, `Fx33` or `Fx55` writing 0x050 to 0x09F (R714) -/
  | protectedWrite
  deriving DecidableEq, Repr

/-- The fault record of the latch HALT (10_state.md R114, R115; 60_exceptions.md R703). -/
structure FaultRecord where
  /-- which condition -/
  code : FaultCode
  /-- the address the faulting instruction was fetched from -/
  pc : Word
  /-- the fetched word, absent for a fetch fault -/
  opcode : Option Word
  /-- the offending address (codes 4 and 6) or key index (code 5), absent for codes 1 to 3 -/
  addr : Option (BitVec 17)
  deriving DecidableEq, Repr

/-- Memory: the bytes that differ from the reset contents, by rising address (canonical form: `Memory.wf`). -/
abbrev Memory := List Host.Cell

/-- The framebuffer: 32 rows of 64 pixels, row-major, `true` is lit (10_state.md R111). -/
abbrev Framebuffer := Vector (Vector Bool 64) 32

/-- The architectural state (10_state.md R100) and the model's own count of random draws. -/
structure State where
  /-- `MEM`, 4096 bytes (R113) -/
  mem : Memory
  /-- `V`, the sixteen general registers (R101) -/
  v : Vector Byte 16
  /-- `I`, the index register (R106) -/
  i : Word
  /-- `PC`, the program counter (R104) -/
  pc : Word
  /-- `SP`, the call-stack depth, 0 to 16 (R107, R114) -/
  sp : Fin 17
  /-- `STACK`, the sixteen call-stack slots (R107) -/
  stack : Vector Word 16
  /-- `DT`, the delay timer (R110) -/
  dt : Byte
  /-- `ST`, the sound timer (R110) -/
  st : Byte
  /-- `FB`, the framebuffer (R111) -/
  fb : Framebuffer
  /-- `KEY`, the keypad state, `true` is pressed (R112) -/
  key : Vector Bool 16
  /-- `HALT`, the fault latch: empty, or the record of the first fault (R115) -/
  halt : Option FaultRecord
  /-- THE MODEL'S OWN: how many random bytes have been drawn; it selects the next free value of the input `rnd`
  (60_exceptions.md R734, log entry 3) -/
  draws : Nat
  deriving DecidableEq, Repr

/-- The state after reset (10_state.md R119, 70_reset_and_hazards.md R800): PC = 0x0200, everything else zero but the
font table, which is what unlisted font addresses read as (Machine/Font.lean, log entry 5). `draws` is the model's own
field: DESIGN CHOICE 0, log entry 3. -/
def State.reset : State where
  mem := []
  v := Vector.replicate 16 0x00#8
  i := 0x0000#16
  pc := 0x0200#16
  sp := 0
  stack := Vector.replicate 16 0x0000#16
  dt := 0x00#8
  st := 0x00#8
  fb := Vector.replicate 32 (Vector.replicate 64 false)
  key := Vector.replicate 16 false
  halt := none
  draws := 0

end Sys2Proof.Machine
end

