-- ==== Sys2Proof/Machine/Font.lean ====
section
/-! DEFINITION. The font table (10_state.md R130): the default value of the parameter `FONT_ROM`, and what a memory
address holds after reset. PRESUMED (the spec itself: from general knowledge), log entry 5. -/

namespace Sys2Proof.Machine

/-- The conventional 80-byte font, the default of `FONT_ROM` (R130): glyph d is the five bytes from 5 * d on. -/
def conventionalFont : List Byte :=
  [ 0xF0, 0x90, 0x90, 0x90, 0xF0,  -- 0
    0x20, 0x60, 0x20, 0x20, 0x70,  -- 1
    0xF0, 0x10, 0xF0, 0x80, 0xF0,  -- 2
    0xF0, 0x10, 0xF0, 0x10, 0xF0,  -- 3
    0x90, 0x90, 0xF0, 0x10, 0x10,  -- 4
    0xF0, 0x80, 0xF0, 0x10, 0xF0,  -- 5
    0xF0, 0x80, 0xF0, 0x90, 0xF0,  -- 6
    0xF0, 0x10, 0x20, 0x40, 0x40 ] ++  -- 7
  [ 0xF0, 0x90, 0xF0, 0x90, 0xF0,  -- 8
    0xF0, 0x90, 0xF0, 0x10, 0xF0,  -- 9
    0xF0, 0x90, 0xF0, 0x90, 0x90,  -- A
    0xE0, 0x90, 0xE0, 0x90, 0xE0,  -- B
    0xF0, 0x80, 0x80, 0x80, 0xF0,  -- C
    0xE0, 0x90, 0x90, 0x90, 0xE0,  -- D
    0xF0, 0x80, 0xF0, 0x80, 0xF0,  -- E
    0xF0, 0x80, 0xF0, 0x80, 0x80 ]  -- F

/-- An address of the font table, 0x050 to 0x09F (20_memory.md R201). -/
def inFont (a : Nat) : Bool := decide (Config.fontBase ≤ a ∧ a < Config.fontBase + Config.fontSize)

/-- An address that is not memory, 0x1000 and above (20_memory.md R201, R203). -/
def outOfRange (a : Nat) : Bool := decide (Config.memSize ≤ a)

/-- What an address the memory does not list reads as: the reset contents (10_state.md R119), the font table at its
addresses and 0x00 everywhere else. -/
def Memory.unlisted (a : Nat) : Byte :=
  if inFont a then conventionalFont.getD (a - Config.fontBase) 0x00#8 else 0x00#8

end Sys2Proof.Machine
end

