-- ==== Sys2Proof/Machine/Ops.lean ====
section
/-! DEFINITION. The named operations over memory, registers, the call stack, the framebuffer and the keypad; the fetch,
the PC advance and the timer tick; and taking a fault, ONE shared operation (60_exceptions.md R704). There is no return
from a fault (R706). -/

namespace Sys2Proof.Machine

/-- What a meaning answers. -/
abbrev Result := Host.Outcome State Fault Refusal

/-! ## Memory: one byte at a time (20_memory.md R205) -/

/-- `MemRead(addr, 1)` (00_scope.md R10). -/
def Memory.read : Memory → Nat → Byte
  | [], a => Memory.unlisted a
  | (b, w) :: m, a => if b = a then w else Memory.read m a

/-- The memory without an entry for `a`. -/
def Memory.erase : Memory → Nat → Memory
  | [], _ => []
  | (b, w) :: m, a => if b = a then Memory.erase m a else (b, w) :: Memory.erase m a

/-- The memory with the entry `(a, v)` before the first higher address. -/
def Memory.insert : Memory → Nat → Byte → Memory
  | [], a, v => [(a, v)]
  | (b, w) :: m, a, v => if a < b then (a, v) :: (b, w) :: m else (b, w) :: Memory.insert m a v

/-- `MemWrite(addr, 1, v)` (00_scope.md R10), keeping the canonical form: a byte equal to the unlisted one is not
listed. Callers check the range first (R203). -/
def Memory.write (m : Memory) (a : Nat) (v : Byte) : Memory :=
  if v = Memory.unlisted a then m.erase a else (m.erase a).insert a v

/-- Consecutive bytes from `a` up, lowest address first. -/
def Memory.writeBytes (m : Memory) (a : Nat) : List Byte → Memory
  | [] => m
  | v :: vs => Memory.writeBytes (m.write a v) (a + 1) vs

/-- The canonical form: addresses strictly rising and inside memory (R200), and no entry equal to what an unlisted
address reads as. -/
abbrev Memory.wf (m : Memory) : Prop :=
  m.Pairwise (fun p q => p.1 < q.1) ∧ ∀ p ∈ m, p.1 < Config.memSize ∧ p.2 ≠ Memory.unlisted p.1

/-! ## Address checks, all before any effect (20_memory.md R202 to R204) -/

/-- The lowest of the addresses `base`, …, `base + n - 1` that is bad. The sum is exact (R202). -/
def firstBad (bad : Nat → Bool) (base n : Nat) : Option Nat :=
  ((List.range n).map (base + ·)).find? bad

/-- The fault of reading n bytes from `base` up (R203), with the lowest offending address. -/
def readFault (base n : Nat) : Option (FaultCode × Nat) :=
  (firstBad outOfRange base n).map (fun a => (FaultCode.memoryOutOfRange, a))

/-- The fault of writing n bytes from `base` up: the range first (R203), then the font region (R204). -/
def writeFault (base n : Nat) : Option (FaultCode × Nat) :=
  (readFault base n).or ((firstBad inFont base n).map (fun a => (FaultCode.protectedWrite, a)))

/-! ## Registers (10_state.md R101) -/

/-- `V[r]`. -/
def State.reg (s : State) (r : Reg) : Byte := s.v[r.val]

/-- `V[r] <- b`. -/
def State.setReg (s : State) (r : Reg) (b : Byte) : State := { s with v := s.v.set r.val b }

/-- VF is `V[15]` (00_scope.md R10). -/
def vf : Reg := 15

/-- `I <- w`. -/
def State.setI (s : State) (w : Word) : State := { s with i := w }

/-- `PC <- target`. -/
def State.setPc (s : State) (w : Word) : State := { s with pc := w }

/-- The fetch advance, `PC <- (PC + 2) mod 2^16` (30_encoding.md R331). -/
def State.advance (s : State) : State := s.setPc (s.pc + 2#16)

/-- PC back at the address the instruction was fetched from: `PC <- (PC - 2) mod 2^16` (45_fx_family.md R611; the
undone advance of 60_exceptions.md R701). -/
def State.rewind (s : State) : State := s.setPc (s.pc - 2#16)

/-- A skip: one further advance when the condition holds (41_control_flow.md R400). -/
def State.skipIf (s : State) (c : Bool) : State := if c then s.advance else s

/-! ## The call stack (10_state.md R107) -/

/-- `STACK[SP] <- w; SP <- SP + 1`, for SP below 16. -/
def State.push (s : State) (w : Word) : State :=
  { s with stack := s.stack.setIfInBounds s.sp.val w, sp := s.sp + 1 }

/-- `STACK[SP - 1]`, for SP above 0. -/
def State.top (s : State) : Word := s.stack[s.sp.val - 1]'(by omega)

/-- `SP <- SP - 1`, for SP above 0; the slot keeps its value (R109). -/
def State.pop (s : State) : State := { s with sp := s.sp - 1 }

/-! ## Timers (10_state.md R110) -/

/-- `DT <- b`. -/
def State.setDt (s : State) (b : Byte) : State := { s with dt := b }

/-- `ST <- b`. -/
def State.setSt (s : State) (b : Byte) : State := { s with st := b }

/-- One tick of a timer: down by one while it is above 0 (R110). -/
def tickTimer (t : Byte) : Byte := if t = 0x00#8 then 0x00#8 else t - 1#8

/-- The timer-tick phase, each timer on its own (30_encoding.md R333). -/
def State.tick (s : State) : State := { s with dt := tickTimer s.dt, st := tickTimer s.st }

/-! ## The framebuffer (10_state.md R111, 44_display.md R551) -/

/-- `FB[r][c]`. -/
def Framebuffer.pixel (fb : Framebuffer) (r : Fin 32) (c : Fin 64) : Bool := (fb[r.val])[c.val]

/-- `FB[r][c] <- FB[r][c] ^ 1`. -/
def Framebuffer.toggle (fb : Framebuffer) (r : Fin 32) (c : Fin 64) : Framebuffer :=
  fb.set r.val ((fb[r.val]).set c.val (!fb.pixel r c))

/-- Every pixel unlit. -/
def Framebuffer.blank : Framebuffer := Vector.replicate 32 (Vector.replicate 64 false)

/-- `FB <- fb`. -/
def State.setFb (s : State) (fb : Framebuffer) : State := { s with fb := fb }

/-- One sprite pixel: toggled if its bit is 1, and a hit if it was lit (44_display.md R552). The pair is the
framebuffer and `hit`. -/
def drawPixel (acc : Framebuffer × Bool) (bit : Bool) (r : Fin 32) (c : Fin 64) : Framebuffer × Bool :=
  if bit then (acc.1.toggle r c, acc.2 || acc.1.pixel r c) else acc

/-- One sprite row: bit (7 - j) of the byte is column j, columns wrapping at 64 (R551, R552). -/
def drawRow (acc : Framebuffer × Bool) (b : Byte) (r : Fin 32) (cx : Nat) : Framebuffer × Bool :=
  (List.range 8).foldl (fun acc j => drawPixel acc (b.getLsbD (7 - j)) r (Fin.ofNat 64 (cx + j))) acc

/-- The sprite of n rows at `base`, rows wrapping at 32, drawn at row cy and column cx (R551, R552). -/
def drawSprite (m : Memory) (base n cx cy : Nat) (fb : Framebuffer) : Framebuffer × Bool :=
  (List.range n).foldl (fun acc k => drawRow acc (m.read (base + k)) (Fin.ofNat 32 (cy + k)) cx) (fb, false)

/-! ## The keypad (10_state.md R112) -/

/-- `KEY[k]`. -/
def State.keyDown (s : State) (k : Fin 16) : Bool := s.key[k.val]

/-- The lowest pressed key, if any (45_fx_family.md R611: slots 0 to 15 in ascending order). -/
def State.lowestKey (s : State) : Option Nat := s.key.toList.findIdx? id

/-! ## Block transfers (45_fx_family.md R616 to R618) -/

/-- Bytes into memory from I up. The addresses have been checked. -/
def State.storeAtI (s : State) (bs : List Byte) : State := { s with mem := s.mem.writeBytes s.i.toNat bs }

/-- The first n general registers, V0 first. -/
def State.firstRegs (s : State) (n : Nat) : List Byte := s.v.toList.take n

/-- The first n general registers loaded from `base` up, V0 first. -/
def loadRegs (m : Memory) (base : Nat) : Nat → Vector Byte 16 → Vector Byte 16
  | 0, v => v
  | n + 1, v => (loadRegs m base n v).setIfInBounds n (m.read (base + n))

/-- The first n general registers loaded from I up. The addresses have been checked. -/
def State.loadFromI (s : State) (n : Nat) : State := { s with v := loadRegs s.mem s.i.toNat n s.v }

/-! ## The fetch (30_encoding.md R331) -/

/-- The two bytes at PC and PC + 1, big-endian (20_memory.md R206), or the lowest of the two addresses that is not
memory. -/
def State.fetch (s : State) : Except Nat Word :=
  match firstBad outOfRange s.pc.toNat 2 with
  | some a => .error a
  | none => .ok (wordOfBytes (s.mem.read s.pc.toNat) (s.mem.read (s.pc.toNat + 1)))

/-- The word the fetch reads, absent where it faults. -/
def State.fetched (s : State) : Option Word :=
  match s.fetch with
  | .ok op => some op
  | .error _ => none

/-! ## Taking a fault (60_exceptions.md R701 to R704) -/

/-- The number of a fault code (R702), three bits (10_state.md R114). -/
def FaultCode.number : FaultCode → BitVec 3
  | .unknownOpcode => 1#3
  | .stackOverflow => 2#3
  | .stackUnderflow => 3#3
  | .memoryOutOfRange => 4#3
  | .keyIndexOutOfRange => 5#3
  | .protectedWrite => 6#3

/-- The fault entry, on the state at the start of the cycle (R704): everything as it was, and HALT holds the code, PC,
the word fetched there if it could be fetched, and the offending address or index. -/
def State.latch (s0 : State) (code : FaultCode) (addr : Option Nat) : State :=
  { s0 with halt := some { code := code, pc := s0.pc, opcode := s0.fetched, addr := addr.map (BitVec.ofNat 17) } }

/-- `raise F(info)` in the execute phase (R704): nothing has been written yet but the PC advance, so undoing it gives
the state at the start of the cycle (log entry 2). -/
def raise (s : State) (code : FaultCode) (addr : Option Nat) : Result := .next (s.rewind.latch code addr)

/-- The effect `s'` unless an address check failed (20_memory.md R203: the check covers every address before any
effect). -/
def unlessFault (f : Option (FaultCode × Nat)) (s s' : State) : Result :=
  match f with
  | some (code, a) => raise s code (some a)
  | none => .next s'

/-- The end of a cycle: the timer tick, in every cycle that did not fault (30_encoding.md R333). -/
def State.endCycle (s : State) : State :=
  match s.halt with
  | some _ => s
  | none => s.tick

end Sys2Proof.Machine
end

