-- ==== Sys2Proof/Machine/Operands.lean ====
section
/-! DEFINITION. The operand forms (30_encoding.md R303, R304; 20_memory.md R202): immediates are unsigned and never
sign-extended, scaled or shifted; a register supplies a value, a key index or a digit; memory is reached through I. -/

namespace Sys2Proof.Machine

/-- `zext_16(nnn)`: a 12-bit address widened with zeros (R303). -/
def zext16 (nnn : Imm12) : Word := nnn.setWidth 16

/-- `zext_16(V[r])`: a register widened with zeros (41_control_flow.md R410). -/
def State.regWord (s : State) (r : Reg) : Word := (s.reg r).setWidth 16

/-- V[x] as a key index: the key it names, or none above 0x0F (41_control_flow.md R408). -/
def keyIndex (v : Byte) : Option (Fin 16) := if h : v.toNat < 16 then some ⟨v.toNat, h⟩ else none

/-- V[x] as a font digit d (45_fx_family.md R615): itself up to 0x0F; above it, what `FONT_HIGH_DIGIT` says. -/
def fontDigit (v : Byte) : Nat :=
  if v.toNat ≤ 0x0F then v.toNat
  else match Config.fontHighDigit with
    | .mask => (v &&& 0x0F#8).toNat
    | .linear => v.toNat

/-- The address of glyph d, `0x050 + 5 * d` (45_fx_family.md R615, 10_state.md R130). -/
def glyphAddress (d : Nat) : Word := BitVec.ofNat 16 (Config.fontBase + 5 * d)

/-- The column of a sprite's origin, `V[x] mod 64` (44_display.md R551). -/
def State.spriteColumn (s : State) (x : Reg) : Nat := (s.reg x).toNat % 64

/-- The row of a sprite's origin, `V[y] mod 32` (44_display.md R551). -/
def State.spriteRow (s : State) (y : Reg) : Nat := (s.reg y).toNat % 32

/-- The decimal digits of a byte, hundreds first (45_fx_family.md R616). -/
def bcdDigits (v : Byte) : List Byte :=
  [BitVec.ofNat 8 (v.toNat / 100), BitVec.ofNat 8 (v.toNat / 10 % 10), BitVec.ofNat 8 (v.toNat % 10)]

/-- The number of registers a block transfer with last register x moves, x + 1 (30_encoding.md R304). -/
def blockCount (x : Reg) : Nat := x.val + 1

/-- The next byte of the random input, `rnd()` (60_exceptions.md R734): a free value. -/
def State.randomByte (s : State) : Byte := Config.rnd s.draws

/-- The random byte is used up: the next draw is another free value (43_load_move.md R503). -/
def State.drawn (s : State) : State := { s with draws := s.draws + 1 }

end Sys2Proof.Machine
end

