-- ==== Sys2Proof/Machine/Flags.lean ====
section
/-! DEFINITION. Every flag computation of the core (10_state.md R102, 42_alu.md R451): VF is 1 or 0, computed from the
operands read at the start of the instruction, and written after Vx. -/

namespace Sys2Proof.Machine

/-- A flag as VF holds it: 1 or 0 (42_alu.md R451). -/
def flagByte (f : Bool) : Byte := if f then 0x01#8 else 0x00#8

/-- Carry out of `a + b`: the exact sum exceeds 255 (42_alu.md R456). -/
def carryOut (a b : Byte) : Bool := decide (a.toNat + b.toNat > 255)

/-- No borrow in `a - b`: the minuend is at least the subtrahend (42_alu.md R457, R459). -/
def noBorrow (a b : Byte) : Bool := decide (a.toNat ≥ b.toNat)

/-- The bit a right shift by one moves out, bit 0 (42_alu.md R458). -/
def shiftedOutRight (a : Byte) : Bool := a.getLsbD 0

/-- The bit a left shift by one moves out, bit 7 (42_alu.md R460). -/
def shiftedOutLeft (a : Byte) : Bool := a.getLsbD 7

/-- `VF <- f`. -/
def State.setFlag (s : State) (f : Bool) : State := s.setReg vf (flagByte f)

/-- Vx first and VF second: with x = 0xF the flag is what VF holds afterwards (42_alu.md R451). -/
def State.setRegFlag (s : State) (x : Reg) (b : Byte) (f : Bool) : State := (s.setReg x b).setFlag f

end Sys2Proof.Machine
end

