-- ==== Sys2Proof/Machine/Alu.lean ====
section
/-! DEFINITION. Arithmetic, logic and shifts (42_alu.md): 8-bit unsigned, results modulo 256 (R450). -/

namespace Sys2Proof.Machine

/-- `ADD Vx, kk` (R452): modulo 256, no flag. -/
def execAddVkk (x : Reg) (kk : Byte) (s : State) : Result := .next (s.setReg x (s.reg x + kk))

/-- `OR Vx, Vy` (R453). -/
def execOr (x y : Reg) (s : State) : Result := .next (s.setReg x (s.reg x ||| s.reg y))

/-- `AND Vx, Vy` (R454). -/
def execAnd (x y : Reg) (s : State) : Result := .next (s.setReg x (s.reg x &&& s.reg y))

/-- `XOR Vx, Vy` (R455). -/
def execXor (x y : Reg) (s : State) : Result := .next (s.setReg x (s.reg x ^^^ s.reg y))

/-- `ADD Vx, Vy` (R456): VF is the carry. -/
def execAddVV (x y : Reg) (s : State) : Result :=
  .next (s.setRegFlag x (s.reg x + s.reg y) (carryOut (s.reg x) (s.reg y)))

/-- `SUB Vx, Vy` (R457): Vx - Vy, VF is not-borrow. -/
def execSub (x y : Reg) (s : State) : Result :=
  .next (s.setRegFlag x (s.reg x - s.reg y) (noBorrow (s.reg x) (s.reg y)))

/-- `SUBN Vx, Vy` (R459): Vy - Vx, VF is not-borrow. -/
def execSubn (x y : Reg) (s : State) : Result :=
  .next (s.setRegFlag x (s.reg y - s.reg x) (noBorrow (s.reg y) (s.reg x)))

/-- `SHR Vx` (R458): in place by one, Vy ignored, VF is the bit shifted out. -/
def execShr (x _y : Reg) (s : State) : Result :=
  .next (s.setRegFlag x (s.reg x >>> 1) (shiftedOutRight (s.reg x)))

/-- `SHL Vx` (R460): in place by one, Vy ignored, VF is the bit shifted out. -/
def execShl (x _y : Reg) (s : State) : Result :=
  .next (s.setRegFlag x (s.reg x <<< 1) (shiftedOutLeft (s.reg x)))

end Sys2Proof.Machine
end

