-- ==== Sys2Proof/Machine/ControlFlow.lean ====
section
/-! DEFINITION. Control flow (41_control_flow.md). PC has already advanced when a meaning runs (30_encoding.md R331), and
every target is taken as it is: no alignment, no range check before the next fetch (R411). -/

namespace Sys2Proof.Machine

/-- `RET` (R401). -/
def execRet (s : State) : Result :=
  if s.sp = 0 then raise s .stackUnderflow none else .next (s.pop.setPc s.top)

/-- `JP nnn` (R402). -/
def execJp (nnn : Imm12) (s : State) : Result := .next (s.setPc (zext16 nnn))

/-- `CALL nnn` (R403): pushes the already advanced PC. -/
def execCall (nnn : Imm12) (s : State) : Result :=
  if s.sp = 16 then raise s .stackOverflow none else .next ((s.push s.pc).setPc (zext16 nnn))

/-- `SE Vx, kk` (R404). -/
def execSeVkk (x : Reg) (kk : Byte) (s : State) : Result := .next (s.skipIf (s.reg x == kk))

/-- `SNE Vx, kk` (R405). -/
def execSneVkk (x : Reg) (kk : Byte) (s : State) : Result := .next (s.skipIf (s.reg x != kk))

/-- `SE Vx, Vy` (R406). -/
def execSeVV (x y : Reg) (s : State) : Result := .next (s.skipIf (s.reg x == s.reg y))

/-- `SNE Vx, Vy` (R407). -/
def execSneVV (x y : Reg) (s : State) : Result := .next (s.skipIf (s.reg x != s.reg y))

/-- A skip on the key V[x] names, when it is in the given state; an index above 0x0F faults (R408, R409). -/
def skipOnKey (x : Reg) (pressed : Bool) (s : State) : Result :=
  match keyIndex (s.reg x) with
  | none => raise s .keyIndexOutOfRange (some (s.reg x).toNat)
  | some k => .next (s.skipIf (s.keyDown k == pressed))

/-- `SKP Vx` (R408). -/
def execSkp (x : Reg) (s : State) : Result := skipOnKey x true s

/-- `SKNP Vx` (R409). -/
def execSknp (x : Reg) (s : State) : Result := skipOnKey x false s

/-- `JP V0, nnn` (R410): always V0. -/
def execJpV0 (nnn : Imm12) (s : State) : Result := .next (s.setPc (zext16 nnn + s.regWord 0))

end Sys2Proof.Machine
end

