-- ==== Sys2Proof/Machine/Display.lean ====
section
/-! DEFINITION. The display instructions (44_display.md). -/

namespace Sys2Proof.Machine

/-- `CLS` (R550). -/
def execCls (s : State) : Result := .next (s.setFb Framebuffer.blank)

/-- `DRW Vx, Vy, n` (R552): the bounds of all n bytes first, the coordinates from the registers before VF is written,
the pixels by XOR, VF the collision, always written. -/
def execDrw (x y : Reg) (n : Fin 16) (s : State) : Result :=
  let drawn := drawSprite s.mem s.i.toNat n.val (s.spriteColumn x) (s.spriteRow y) s.fb
  unlessFault (readFault s.i.toNat n.val) s ((s.setFb drawn.1).setFlag drawn.2)

end Sys2Proof.Machine
end

