-- ==== Sys2Proof/Machine/FxFamily.lean ====
section
/-! DEFINITION. Family 0xF (45_fx_family.md): timers, key wait, index, font, BCD, block transfer. V[x] and I are read
before any write, and no instruction of the family writes VF as a flag (R600). -/

namespace Sys2Proof.Machine

/-- `LD Vx, DT` (R610): DT before this cycle's tick. -/
def execLdVDt (x : Reg) (s : State) : Result := .next (s.setReg x s.dt)

/-- `LD Vx, K` (R611): the lowest pressed key, or PC back at this instruction. -/
def execLdVKey (x : Reg) (s : State) : Result :=
  match s.lowestKey with
  | some k => .next (s.setReg x (BitVec.ofNat 8 k))
  | none => .next s.rewind

/-- `LD DT, Vx` (R612). -/
def execLdDtV (x : Reg) (s : State) : Result := .next (s.setDt (s.reg x))

/-- `LD ST, Vx` (R613). -/
def execLdStV (x : Reg) (s : State) : Result := .next (s.setSt (s.reg x))

/-- `ADD I, Vx` (R614): modulo 2^16, no flag, no check. -/
def execAddIV (x : Reg) (s : State) : Result := .next (s.setI (s.i + s.regWord x))

/-- `LD F, Vx` (R615): the address of the digit's glyph. -/
def execLdFV (x : Reg) (s : State) : Result := .next (s.setI (glyphAddress (fontDigit (s.reg x))))

/-- `LD B, Vx` (R616): hundreds, tens, ones at I, I + 1, I + 2. -/
def execLdBV (x : Reg) (s : State) : Result :=
  unlessFault (writeFault s.i.toNat 3) s (s.storeAtI (bcdDigits (s.reg x)))

/-- `LD [I], Vx` (R617): V0 to Vx at I up; I unchanged. -/
def execLdMiV (x : Reg) (s : State) : Result :=
  unlessFault (writeFault s.i.toNat (blockCount x)) s (s.storeAtI (s.firstRegs (blockCount x)))

/-- `LD Vx, [I]` (R618): V0 to Vx from I up; I unchanged. -/
def execLdVMi (x : Reg) (s : State) : Result :=
  unlessFault (readFault s.i.toNat (blockCount x)) s (s.loadFromI (blockCount x))

end Sys2Proof.Machine
end

