-- ==== Sys2Proof/Machine/LoadMove.lean ====
section
/-! DEFINITION. Load, move and random (43_load_move.md): no flag, no fault. -/

namespace Sys2Proof.Machine

/-- `LD Vx, kk` (R500). -/
def execLdVkk (x : Reg) (kk : Byte) (s : State) : Result := .next (s.setReg x kk)

/-- `LD Vx, Vy` (R501). -/
def execLdVV (x y : Reg) (s : State) : Result := .next (s.setReg x (s.reg y))

/-- `LD I, nnn` (R502). -/
def execLdI (nnn : Imm12) (s : State) : Result := .next (s.setI (zext16 nnn))

/-- `RND Vx, kk` (R503): the random byte is a free value, a fresh one at each execution. -/
def execRnd (x : Reg) (kk : Byte) (s : State) : Result := .next ((s.setReg x (s.randomByte &&& kk)).drawn)

end Sys2Proof.Machine
end

