-- ==== Sys2Proof/Machine/Dispatch.lean ====
section
/-! DEFINITION. The execute phase (30_encoding.md R332): one arm per instruction, on the state after the fetch advance. -/

namespace Sys2Proof.Machine

def exec (i : Instr) (s : State) : Host.Outcome State Fault Refusal :=
  match i with
  | .cls => Sys2Proof.Machine.execCls s
  | .ret => Sys2Proof.Machine.execRet s
  | .jp nnn => Sys2Proof.Machine.execJp nnn s
  | .call nnn => Sys2Proof.Machine.execCall nnn s
  | .seVkk x kk => Sys2Proof.Machine.execSeVkk x kk s
  | .sneVkk x kk => Sys2Proof.Machine.execSneVkk x kk s
  | .seVV x y => Sys2Proof.Machine.execSeVV x y s
  | .ldVkk x kk => Sys2Proof.Machine.execLdVkk x kk s
  | .addVkk x kk => Sys2Proof.Machine.execAddVkk x kk s
  | .ldVV x y => Sys2Proof.Machine.execLdVV x y s
  | .or x y => Sys2Proof.Machine.execOr x y s
  | .and x y => Sys2Proof.Machine.execAnd x y s
  | .xor x y => Sys2Proof.Machine.execXor x y s
  | .addVV x y => Sys2Proof.Machine.execAddVV x y s
  | .sub x y => Sys2Proof.Machine.execSub x y s
  | .shr x y => Sys2Proof.Machine.execShr x y s
  | .subn x y => Sys2Proof.Machine.execSubn x y s
  | .shl x y => Sys2Proof.Machine.execShl x y s
  | .sneVV x y => Sys2Proof.Machine.execSneVV x y s
  | .ldI nnn => Sys2Proof.Machine.execLdI nnn s
  | .jpV0 nnn => Sys2Proof.Machine.execJpV0 nnn s
  | .rnd x kk => Sys2Proof.Machine.execRnd x kk s
  | .drw x y n => Sys2Proof.Machine.execDrw x y n s
  | .skp x => Sys2Proof.Machine.execSkp x s
  | .sknp x => Sys2Proof.Machine.execSknp x s
  | .ldVDt x => Sys2Proof.Machine.execLdVDt x s
  | .ldVKey x => Sys2Proof.Machine.execLdVKey x s
  | .ldDtV x => Sys2Proof.Machine.execLdDtV x s
  | .ldStV x => Sys2Proof.Machine.execLdStV x s
  | .addIV x => Sys2Proof.Machine.execAddIV x s
  | .ldFV x => Sys2Proof.Machine.execLdFV x s
  | .ldBV x => Sys2Proof.Machine.execLdBV x s
  | .ldMiV x => Sys2Proof.Machine.execLdMiV x s
  | .ldVMi x => Sys2Proof.Machine.execLdVMi x s

end Sys2Proof.Machine
end

