-- ==== Sys2Proof/Machine/Step.lean ====
section
/-! DEFINITION. The instruction cycle (30_encoding.md R330): fetch, decode, execute, timer tick, or the cycle's fault;
and where the host's probe places an instruction. -/

namespace Sys2Proof.Machine

/-- What the cycle makes of the execute phase's answer: the end of the cycle on a next state. -/
def finish : Host.Outcome State Fault Refusal → Host.Outcome State Fault Refusal
  | .next t => .next t.endCycle
  | .fault f => .fault f
  | .refused r => .refused r

/-- One `step` (R330). A halted core changes no state (60_exceptions.md R705). A fetch fault comes before an unknown
opcode, and that before any execute fault (60_exceptions.md R720). -/
def step (s : State) : Host.Outcome State Fault Refusal :=
  match s.halt with
  | some _ => .next s
  | none =>
    match s.fetch with
    | .error a => .next (s.latch .memoryOutOfRange (some a))
    | .ok op =>
      match decodeWord op with
      | .error _ => .next (s.latch .unknownOpcode none)
      | .ok i => finish (exec i s.advance)

/-- Where the next instruction is fetched from: PC, or 0x200 where PC is at no fetchable address. -/
def fetchAddress (s : State) : Word :=
  match s.fetch with
  | .ok _ => s.pc
  | .error _ => BitVec.ofNat 16 Config.progBase

/-- The state with an instruction of the opcode table's numbering stored where `step` fetches next, big-endian
(20_memory.md R206). The fetch needs a core that is not halted and a PC whose two bytes are memory, so the fault latch
is emptied and an unfetchable PC becomes 0x200; nothing else changes (log entry 9). -/
def State.withFetchWord (s : State) (nbits w : Nat) : State :=
  { s with
    mem := s.mem.writeBytes (fetchAddress s).toNat [highByte (tableWord nbits w), lowByte (tableWord nbits w)]
    pc := fetchAddress s
    halt := none }

end Sys2Proof.Machine
end

