-- ==== Sys2Proof/Machine/Ports.lean ====
section
/-! DEFINITION. The host's ports (60_exceptions.md R730): what the host can do to the core, and see of it, between two
cycles. The random input is the free value of Operands.lean; the step port is Step.lean. -/

namespace Sys2Proof.Machine

/-- The host-side errors: returned to the host, no core fault, no state changed (R715). -/
inductive HostError where
  /-- the image is larger than 3584 bytes (20_memory.md R212) -/
  | programTooLarge
  /-- a row above 31, a column above 63 or a key above 15 (R731, R732) -/
  | hostIndexOutOfRange
  deriving DecidableEq, Repr

/-- The state after reset of a machine whose `FONT_ROM` is the given 80 bytes (10_state.md R119, R130). -/
def State.resetWith (font : Vector Byte 80) : State :=
  { State.reset with mem := Memory.writeBytes [] Config.fontBase font.toList }

/-- The `reset` port (R736, 70_reset_and_hazards.md R800): construction again, whatever the core was doing; `FONT_ROM`
is the machine's parameter (log entry 13). The count of random draws is no state of the core and goes on: the bytes
drawn after a reset are free values of their own (log entry 3). -/
def portReset (font : Vector Byte 80) (s : State) : State := { State.resetWith font with draws := s.draws }

/-- The `load` port (20_memory.md R212): the image at 0x200 and up, or an error with nothing changed. -/
def portLoad (image : List Byte) (s : State) : Except HostError State :=
  if image.length ≤ Config.progMax then .ok { s with mem := s.mem.writeBytes Config.progBase image }
  else .error .programTooLarge

/-- The `key_set` port (R732). -/
def portKeySet (k : Nat) (pressed : Bool) (s : State) : Except HostError State :=
  if h : k < 16 then .ok { s with key := s.key.set k pressed } else .error .hostIndexOutOfRange

/-- The `pixel` port (R731). -/
def portPixel (r c : Nat) (s : State) : Except HostError Bool :=
  if h : r < 32 ∧ c < 64 then .ok (s.fb.pixel ⟨r, h.1⟩ ⟨c, h.2⟩) else .error .hostIndexOutOfRange

/-- The `sound_on` output (R735). -/
def portSoundOn (s : State) : Bool := decide (s.st ≠ 0x00#8)

/-- What the `status` port of a model shows (R733): the whole state record of 10_state.md R100, component by component,
SP among them (10_state.md R114), and the fault's code under its number (R702). The model's own count of random draws is
no component of that record and is not shown. -/
structure Status where
  /-- `MEM` -/
  mem : Memory
  /-- `V` -/
  v : Vector Byte 16
  /-- `I` -/
  i : Word
  /-- `PC` -/
  pc : Word
  /-- `SP` -/
  sp : Fin 17
  /-- `STACK` -/
  stack : Vector Word 16
  /-- `DT` -/
  dt : Byte
  /-- `ST` -/
  st : Byte
  /-- `FB` -/
  fb : Framebuffer
  /-- `KEY` -/
  key : Vector Bool 16
  /-- `HALT`: empty (not valid), or the record -/
  halt : Option FaultRecord
  /-- the code field of `HALT` as its three bits (10_state.md R114), none while `HALT` is empty -/
  haltCode : Option (BitVec 3)
  deriving DecidableEq, Repr

/-- The `status` port (R733): read-only, a view of the state. -/
def portStatus (s : State) : Status where
  mem := s.mem
  v := s.v
  i := s.i
  pc := s.pc
  sp := s.sp
  stack := s.stack
  dt := s.dt
  st := s.st
  fb := s.fb
  key := s.key
  halt := s.halt
  haltCode := s.halt.map fun r => r.code.number

/-- The host's actions that can change the state (R730). -/
inductive HostAction where
  | step
  | reset
  | load (image : List Byte)
  | keySet (k : Nat) (pressed : Bool)
  deriving DecidableEq, Repr

/-- The state after a host action on a machine with the given `FONT_ROM`; an action that ends in a host-side error
leaves the state as it was (R715). -/
def act (font : Vector Byte 80) (a : HostAction) (s : State) : State :=
  match a with
  | .step => match step s with
    | .next t => t
    | .fault _ => s
    | .refused _ => s
  | .reset => portReset font s
  | .load image => match portLoad image s with
    | .ok t => t
    | .error _ => s
  | .keySet k pressed => match portKeySet k pressed s with
    | .ok t => t
    | .error _ => s

end Sys2Proof.Machine
end

