-- ==== Sys2Proof/Safety.lean ====
section
/-! DEFINITION. The terms the claims use: the access matrix of 10_state.md R118 (its W columns), what the fault latch
says of the state it stands in, an untouched font table, and the states a host can bring the core to. -/

namespace Sys2Proof.Machine

/-! ## The W columns of the access matrix (10_state.md R118, R102) -/

/-- The registers an instruction may write: its named destination, and VF where the matrix has it as a flag. -/
def writesReg : Instr → Reg → Bool
  | .ldVkk x _, r | .addVkk x _, r | .ldVV x _, r | .or x _, r | .and x _, r | .xor x _, r | .rnd x _, r
  | .ldVDt x, r | .ldVKey x, r => r == x
  | .addVV x _, r | .sub x _, r | .shr x _, r | .subn x _, r | .shl x _, r => r == x || r == vf
  | .drw _ _ _, r => r == vf
  | .ldVMi x, r => decide (r ≤ x)
  | .cls, _ | .ret, _ | .jp _, _ | .call _, _ | .seVkk _ _, _ | .sneVkk _ _, _ | .seVV _ _, _ | .sneVV _ _, _
  | .ldI _, _ | .jpV0 _, _ | .skp _, _ | .sknp _, _ | .ldDtV _, _ | .ldStV _, _ | .addIV _, _ | .ldFV _, _
  | .ldBV _, _ | .ldMiV _, _ => false

/-- The instructions that may write PC beside the fetch advance. -/
def writesPc : Instr → Bool
  | .ret | .jp _ | .call _ | .seVkk _ _ | .sneVkk _ _ | .seVV _ _ | .sneVV _ _ | .jpV0 _ | .skp _ | .sknp _
  | .ldVKey _ => true
  | .cls | .ldVkk _ _ | .addVkk _ _ | .ldVV _ _ | .or _ _ | .and _ _ | .xor _ _ | .addVV _ _ | .sub _ _ | .shr _ _
  | .subn _ _ | .shl _ _ | .ldI _ | .rnd _ _ | .drw _ _ _ | .ldVDt _ | .ldDtV _ | .ldStV _ | .addIV _ | .ldFV _
  | .ldBV _ | .ldMiV _ | .ldVMi _ => false

/-- How many bytes from I up an instruction stores (R616, R617). -/
def storedBytes : Instr → Nat
  | .ldBV _ => 3
  | .ldMiV x => x.val + 1
  | .cls | .ret | .jp _ | .call _ | .seVkk _ _ | .sneVkk _ _ | .seVV _ _ | .sneVV _ _ | .jpV0 _ | .skp _ | .sknp _
  | .ldVKey _ | .ldVkk _ _ | .addVkk _ _ | .ldVV _ _ | .or _ _ | .and _ _ | .xor _ _ | .addVV _ _ | .sub _ _
  | .shr _ _ | .subn _ _ | .shl _ _ | .ldI _ | .rnd _ _ | .drw _ _ _ | .ldVDt _ | .ldDtV _ | .ldStV _ | .addIV _
  | .ldFV _ | .ldVMi _ => 0

/-! ## Invariants -/

/-- The fault latch describes the state it stands in (60_exceptions.md R702, R703): PC is still at the faulting
instruction, and each code has its context. -/
def State.latchDescribes (s : State) : Prop :=
  ∀ r, s.halt = some r → r.pc = s.pc ∧
    match r.code with
    | .unknownOpcode => r.addr = none ∧ ∃ op, r.opcode = some op ∧ decodeWord op = .error .unknownOpcode
    | .stackOverflow => r.addr = none ∧ s.sp = 16 ∧ ∃ op nnn, r.opcode = some op ∧ decodeWord op = .ok (.call nnn)
    | .stackUnderflow => r.addr = none ∧ s.sp = 0 ∧ ∃ op, r.opcode = some op ∧ decodeWord op = .ok .ret
    | .memoryOutOfRange => (∃ a, r.addr = some a ∧ 4096 ≤ a.toNat) ∧
        (r.opcode = none ↔ 4096 ≤ s.pc.toNat + 1)
    | .keyIndexOutOfRange => (∃ a, r.addr = some a ∧ 15 < a.toNat ∧ a.toNat < 256) ∧ r.opcode ≠ none
    | .protectedWrite => (∃ a, r.addr = some a ∧ 0x050 ≤ a.toNat ∧ a.toNat ≤ 0x09F) ∧ r.opcode ≠ none

/-- The font table holds the machine's `FONT_ROM` (10_state.md R130). -/
def State.fontIs (s : State) (font : Vector Byte 80) : Prop :=
  ∀ k : Fin 80, s.mem.read (0x050 + k.val) = font[k.val]

/-- The states a host can bring a machine with this `FONT_ROM` to: reset, then any actions of R730 in any order. -/
inductive Reachable (font : Vector Byte 80) : State → Prop where
  /-- after reset (70_reset_and_hazards.md R800) -/
  | start : Reachable font (State.resetWith font)
  /-- after one more action of the host (60_exceptions.md R730) -/
  | after (a : HostAction) (s : State) : Reachable font s → Reachable font (act font a s)

end Sys2Proof.Machine
end

