-- ==== Sys2Proof/Certificates/Slice0/Obligations.lean ====
section
/-! DEFINITION. The statements for the provers. "The text of R<n>" names the rule whose words a statement follows; a
statement whose rule carries one of the spec's own marks ([decision: …], [derived: …]) on a clause it states has basis
'derived' in OBLIGATIONS.json. Execute-phase statements are about `exec` on the state AFTER the fetch advance: its `pc`
is the fetch address plus 2 (30_encoding.md R331). -/

open Sys2Proof Sys2Proof.Machine

/-! ## Encoding -/

/-- Words of the spec's decoder vectors (95_test_vectors.md section 3 and section 2), one or more of every family (every
primary nibble, 0x0 to 0xF). -/
def Obligations.SampleWordsDecode : Prop :=
  decodeWord 0x0000#16 = .ok .cls ∧ decodeWord 0x00E0#16 = .ok .cls ∧ decodeWord 0x0FF0#16 = .ok .cls ∧
  decodeWord 0x00EE#16 = .ok .ret ∧ decodeWord 0x0ABE#16 = .ok .ret ∧
  decodeWord 0x0123#16 = .error .unknownOpcode ∧ decodeWord 0x00FF#16 = .error .unknownOpcode ∧
  decodeWord 0x1234#16 = .ok (.jp 0x234#12) ∧ decodeWord 0x2300#16 = .ok (.call 0x300#12) ∧
  decodeWord 0x3342#16 = .ok (.seVkk 3 0x42#8) ∧ decodeWord 0x4342#16 = .ok (.sneVkk 3 0x42#8) ∧
  decodeWord 0x5121#16 = .ok (.seVV 1 2) ∧ decodeWord 0x912F#16 = .ok (.sneVV 1 2) ∧
  decodeWord 0x6A2B#16 = .ok (.ldVkk 10 0x2B#8) ∧ decodeWord 0x7220#16 = .ok (.addVkk 2 0x20#8) ∧
  decodeWord 0x8AB0#16 = .ok (.ldVV 10 11) ∧ decodeWord 0x8AB8#16 = .error .unknownOpcode ∧
  decodeWord 0xA2F0#16 = .ok (.ldI 0x2F0#12) ∧ decodeWord 0xB300#16 = .ok (.jpV0 0x300#12) ∧ decodeWord 0xC30F#16 = .ok (.rnd 3 0x0F#8) ∧
  decodeWord 0xD000#16 = .ok (.drw 0 0 0) ∧ decodeWord 0xE30E#16 = .ok (.skp 3) ∧
  decodeWord 0xE3F1#16 = .ok (.sknp 3) ∧ decodeWord 0xE39F#16 = .error .unknownOpcode ∧
  decodeWord 0xF30A#16 = .ok (.ldVKey 3) ∧ decodeWord 0xF31A#16 = .error .unknownOpcode ∧
  decodeWord 0xFFFF#16 = .error .unknownOpcode

/-- DECODE AND ENCODE AGREE: the canonical word of every instruction (30_encoding.md section 4), as a word, as the bytes
memory holds in front of any others, and in the opcode table's numbering, decodes to that instruction. -/
def Obligations.DecodeOfEncode : Prop :=
  ∀ i : Instr,
    decodeWord (encode i) = .ok i ∧
    (∀ rest, decodeBytes (highByte (encode i) :: lowByte (encode i) :: rest) = .ok (i, rest)) ∧
    decodeTableWord 16 (encode i).toNat = some i

/-- A word decodes to an instruction exactly when it agrees with the canonical word outside the ignored bits
(30_encoding.md sections 1 and 3: "any value selects the same instruction with the same effect"). -/
def Obligations.DecodesExactlyTheMatchingWords : Prop :=
  ∀ (op : Word) (i : Instr),
    decodeWord op = .ok i ↔ op &&& ~~~ignoredBits i = encode i &&& ~~~ignoredBits i

/-- The opcode map of 30_encoding.md section 3 (the text of R310, R312 to R316), field by field: every value of every
field, ignored bits included. -/
def Obligations.OpcodeMapByFields : Prop :=
  (∀ g : BitVec 8, decodeWord (0x0#4 ++ g ++ 0x0#4) = .ok .cls) ∧
  (∀ g : BitVec 8, decodeWord (0x0#4 ++ g ++ 0xE#4) = .ok .ret) ∧
  (∀ nnn : BitVec 12, decodeWord (0x1#4 ++ nnn) = .ok (.jp nnn)) ∧
  (∀ nnn : BitVec 12, decodeWord (0x2#4 ++ nnn) = .ok (.call nnn)) ∧
  (∀ (x : BitVec 4) (kk : BitVec 8), decodeWord (0x3#4 ++ x ++ kk) = .ok (.seVkk x.toFin kk)) ∧
  (∀ (x : BitVec 4) (kk : BitVec 8), decodeWord (0x4#4 ++ x ++ kk) = .ok (.sneVkk x.toFin kk)) ∧
  (∀ x y g : BitVec 4, decodeWord (0x5#4 ++ x ++ y ++ g) = .ok (.seVV x.toFin y.toFin)) ∧
  (∀ (x : BitVec 4) (kk : BitVec 8), decodeWord (0x6#4 ++ x ++ kk) = .ok (.ldVkk x.toFin kk)) ∧
  (∀ (x : BitVec 4) (kk : BitVec 8), decodeWord (0x7#4 ++ x ++ kk) = .ok (.addVkk x.toFin kk)) ∧
  (∀ x y : BitVec 4, decodeWord (0x8#4 ++ x ++ y ++ 0x0#4) = .ok (.ldVV x.toFin y.toFin)) ∧
  (∀ x y : BitVec 4, decodeWord (0x8#4 ++ x ++ y ++ 0x1#4) = .ok (.or x.toFin y.toFin)) ∧
  (∀ x y : BitVec 4, decodeWord (0x8#4 ++ x ++ y ++ 0x2#4) = .ok (.and x.toFin y.toFin)) ∧
  (∀ x y : BitVec 4, decodeWord (0x8#4 ++ x ++ y ++ 0x3#4) = .ok (.xor x.toFin y.toFin)) ∧
  (∀ x y : BitVec 4, decodeWord (0x8#4 ++ x ++ y ++ 0x4#4) = .ok (.addVV x.toFin y.toFin)) ∧
  (∀ x y : BitVec 4, decodeWord (0x8#4 ++ x ++ y ++ 0x5#4) = .ok (.sub x.toFin y.toFin)) ∧
  (∀ x y : BitVec 4, decodeWord (0x8#4 ++ x ++ y ++ 0x6#4) = .ok (.shr x.toFin y.toFin)) ∧
  (∀ x y : BitVec 4, decodeWord (0x8#4 ++ x ++ y ++ 0x7#4) = .ok (.subn x.toFin y.toFin)) ∧
  (∀ x y : BitVec 4, decodeWord (0x8#4 ++ x ++ y ++ 0xE#4) = .ok (.shl x.toFin y.toFin)) ∧
  (∀ x y g : BitVec 4, decodeWord (0x9#4 ++ x ++ y ++ g) = .ok (.sneVV x.toFin y.toFin)) ∧
  (∀ nnn : BitVec 12, decodeWord (0xA#4 ++ nnn) = .ok (.ldI nnn)) ∧
  (∀ nnn : BitVec 12, decodeWord (0xB#4 ++ nnn) = .ok (.jpV0 nnn)) ∧
  (∀ (x : BitVec 4) (kk : BitVec 8), decodeWord (0xC#4 ++ x ++ kk) = .ok (.rnd x.toFin kk)) ∧
  (∀ x y n : BitVec 4, decodeWord (0xD#4 ++ x ++ y ++ n) = .ok (.drw x.toFin y.toFin n.toFin)) ∧
  (∀ x g : BitVec 4, decodeWord (0xE#4 ++ x ++ g ++ 0xE#4) = .ok (.skp x.toFin)) ∧
  (∀ x g : BitVec 4, decodeWord (0xE#4 ++ x ++ g ++ 0x1#4) = .ok (.sknp x.toFin)) ∧
  (∀ x : BitVec 4, decodeWord (0xF#4 ++ x ++ 0x07#8) = .ok (.ldVDt x.toFin)) ∧
  (∀ x : BitVec 4, decodeWord (0xF#4 ++ x ++ 0x0A#8) = .ok (.ldVKey x.toFin)) ∧
  (∀ x : BitVec 4, decodeWord (0xF#4 ++ x ++ 0x15#8) = .ok (.ldDtV x.toFin)) ∧
  (∀ x : BitVec 4, decodeWord (0xF#4 ++ x ++ 0x18#8) = .ok (.ldStV x.toFin)) ∧
  (∀ x : BitVec 4, decodeWord (0xF#4 ++ x ++ 0x1E#8) = .ok (.addIV x.toFin)) ∧
  (∀ x : BitVec 4, decodeWord (0xF#4 ++ x ++ 0x29#8) = .ok (.ldFV x.toFin)) ∧
  (∀ x : BitVec 4, decodeWord (0xF#4 ++ x ++ 0x33#8) = .ok (.ldBV x.toFin)) ∧
  (∀ x : BitVec 4, decodeWord (0xF#4 ++ x ++ 0x55#8) = .ok (.ldMiV x.toFin)) ∧
  (∀ x : BitVec 4, decodeWord (0xF#4 ++ x ++ 0x65#8) = .ok (.ldVMi x.toFin))

/-- The unknown words are exactly those of four families (the text of R317), read off the word as a number: primary
nibble `op / 4096`, low nibble `op % 16`, low byte `op % 256`. Decoding a word never fails in another way. -/
def Obligations.UnknownWordsExactly : Prop :=
  ∀ op : Word,
    (decodeWord op = .error .unknownOpcode ↔
      (op.toNat / 4096 = 0x0 ∧ op.toNat % 16 ∉ [0x0, 0xE]) ∨
      (op.toNat / 4096 = 0x8 ∧ op.toNat % 16 ∈ [0x8, 0x9, 0xA, 0xB, 0xC, 0xD, 0xF]) ∨
      (op.toNat / 4096 = 0xE ∧ op.toNat % 16 ∉ [0x1, 0xE]) ∨
      (op.toNat / 4096 = 0xF ∧ op.toNat % 256 ∉ [0x07, 0x0A, 0x15, 0x18, 0x1E, 0x29, 0x33, 0x55, 0x65])) ∧
    decodeWord op ≠ .error .truncated

/-! ## The cycle -/

/-- A STEP RUNS THE DECODED INSTRUCTION (the text of R330, R331, R333): when the core is not halted and the two bytes at
PC, big-endian, decode to i, the step is exec of i on the state with PC advanced by 2, followed by the tick of both
timers unless the cycle faulted. -/
def Obligations.StepRunsTheDecodedInstruction : Prop :=
  ∀ (s : State) (i : Instr),
    s.halt = none → s.pc.toNat + 1 < 4096 →
    decodeWord (s.mem.read s.pc.toNat ++ s.mem.read (s.pc.toNat + 1)) = .ok i →
    step s = match exec i { s with pc := s.pc + 2#16 } with
      | .next t => .next (match t.halt with
        | some _ => t
        | none => { t with dt := if t.dt = 0#8 then 0#8 else t.dt - 1#8, st := if t.st = 0#8 then 0#8 else t.st - 1#8 })
      | .fault f => .fault f
      | .refused r => .refused r

/-- Every step of every state answers a next state: a fault of the core is a state change (the text of R704, R705; log
entry 1). -/
def Obligations.EveryStepAnswersANextState : Prop :=
  (∀ s : State, ∃ t, step s = .next t) ∧ ∀ (i : Instr) (s : State), ∃ t, exec i s = .next t

/-- A halted core is stuck: any number of steps changes nothing (the text of R705; log entry 1). -/
def Obligations.HaltedCoreIsStuck : Prop :=
  ∀ (s : State) (r : FaultRecord) (n : Nat), s.halt = some r →
    step s = .next s ∧ Host.Core.run Sys2Proof.core n s = .next s

/-- Faults are precise (the text of R701, R704): a step that faults leaves every piece of state as it was and only sets
the latch, whose record names PC, the word fetched there (absent for a fetch fault) and the code. -/
def Obligations.FaultsArePrecise : Prop :=
  ∀ s t : State, s.halt = none → step s = .next t → t.halt ≠ none →
    ∃ r : FaultRecord, t = { s with halt := some r } ∧ r.pc = s.pc ∧
      r.opcode = (if 4096 ≤ s.pc.toNat + 1 then none
        else some (s.mem.read s.pc.toNat ++ s.mem.read (s.pc.toNat + 1)))

/-! ## The fault causes -/

/-- R712: an address of 4096 or above, formed by the fetch or by `Dxyn`, `Fx33`, `Fx55`, `Fx65`, latches
MemoryOutOfRange with PC, the lowest offending address, and the opcode except for a fetch fault. `n` is the number of
bytes the instruction accesses from I up. -/
def Obligations.MemoryOutOfRangeFaults : Prop :=
  (∀ s : State, s.halt = none → 4096 ≤ s.pc.toNat + 1 →
    ∃ t, step s = .next t ∧
      t.halt = some ⟨.memoryOutOfRange, s.pc, none, some (BitVec.ofNat 17 (max s.pc.toNat 4096))⟩) ∧
  ∀ (s : State) (op : Word) (i : Instr) (n : Nat),
    s.halt = none → s.pc.toNat + 1 < 4096 →
    op = s.mem.read s.pc.toNat ++ s.mem.read (s.pc.toNat + 1) → decodeWord op = .ok i →
    ((∃ x y k, i = .drw x y k ∧ n = k.val) ∨ (∃ x, i = .ldBV x ∧ n = 3) ∨
      (∃ x, i = .ldMiV x ∧ n = x.val + 1) ∨ (∃ x, i = .ldVMi x ∧ n = x.val + 1)) →
    0 < n → 4096 < s.i.toNat + n →
    ∃ t, step s = .next t ∧
      t.halt = some ⟨.memoryOutOfRange, s.pc, some op, some (BitVec.ofNat 17 (max s.i.toNat 4096))⟩

/-- R709: a word with no instruction latches UnknownOpcode with the opcode and PC, before any effect of an execute
phase. (That PC and the timers stay too is the spec's decision D6: `FaultsArePrecise`.) -/
def Obligations.UnknownOpcodeFaults : Prop :=
  ∀ (s : State) (op : Word),
    s.halt = none → s.pc.toNat + 1 < 4096 →
    op = s.mem.read s.pc.toNat ++ s.mem.read (s.pc.toNat + 1) → decodeWord op = .error .unknownOpcode →
    ∃ t, step s = .next t ∧ t.halt = some ⟨.unknownOpcode, s.pc, some op, none⟩ ∧
      t.mem = s.mem ∧ t.v = s.v ∧ t.i = s.i ∧ t.sp = s.sp ∧ t.stack = s.stack ∧ t.fb = s.fb ∧ t.key = s.key

/-- R710, R711: `CALL` at depth 16 latches StackOverflow, `RET` at depth 0 StackUnderflow, with the opcode and PC. -/
def Obligations.StackDepthFaults : Prop :=
  ∀ (s : State) (op : Word),
    s.halt = none → s.pc.toNat + 1 < 4096 →
    op = s.mem.read s.pc.toNat ++ s.mem.read (s.pc.toNat + 1) →
    (∀ nnn, decodeWord op = .ok (.call nnn) → s.sp.val = 16 →
      ∃ t, step s = .next t ∧ t.halt = some ⟨.stackOverflow, s.pc, some op, none⟩) ∧
    (decodeWord op = .ok .ret → s.sp.val = 0 →
      ∃ t, step s = .next t ∧ t.halt = some ⟨.stackUnderflow, s.pc, some op, none⟩)

/-- `SKP` or `SKNP` with a register above 15 latches KeyIndexOutOfRange with the index (the text of R713; the spec's
decision D21). -/
def Obligations.KeyIndexFaults : Prop :=
  ∀ (s : State) (op : Word) (x : Reg),
    s.halt = none → s.pc.toNat + 1 < 4096 →
    op = s.mem.read s.pc.toNat ++ s.mem.read (s.pc.toNat + 1) →
    decodeWord op = .ok (.skp x) ∨ decodeWord op = .ok (.sknp x) → 15 < (s.reg x).toNat →
    step s = .next { s with
      halt := some ⟨.keyIndexOutOfRange, s.pc, some op, some ((s.reg x).setWidth 17)⟩ }

/-- `Fx33` or `Fx55` that would write an address of the font table latches ProtectedWrite with the lowest such address,
after the range check (the text of R714, R204, R720; the spec's decisions D18, D35). -/
def Obligations.ProtectedWriteFaults : Prop :=
  ∀ (s : State) (op : Word) (x : Reg) (n a : Nat),
    s.halt = none → s.pc.toNat + 1 < 4096 →
    op = s.mem.read s.pc.toNat ++ s.mem.read (s.pc.toNat + 1) →
    (decodeWord op = .ok (.ldBV x) ∧ n = 3) ∨ (decodeWord op = .ok (.ldMiV x) ∧ n = x.val + 1) →
    s.i.toNat ≤ a → a < s.i.toNat + n → 0x050 ≤ a → a ≤ 0x09F →
    (∀ b, s.i.toNat ≤ b → b < a → ¬ (0x050 ≤ b ∧ b ≤ 0x09F)) →
    step s = .next { s with halt := some ⟨.protectedWrite, s.pc, some op, some (BitVec.ofNat 17 a)⟩ }

/-! ## Invariants -/

/-- AN INVARIANT THAT EVERY STEP KEEPS: memory stays in its canonical form (20_memory.md R200, R203; log entry 6). -/
def Obligations.StepKeepsMemoryCanonical : Prop :=
  ∀ s t : State, s.mem.wf → step s = .next t → t.mem.wf

/-- The invariants hold after reset, for every `FONT_ROM` and for `State.reset` (log entries 5 and 6). -/
def Obligations.ResetMeetsTheInvariants : Prop :=
  (State.reset.mem.wf ∧ State.reset.latchDescribes) ∧
  ∀ font : Vector Byte 80, (State.resetWith font).mem.wf ∧ (State.resetWith font).latchDescribes ∧
    (State.resetWith font).fontIs font

/-- The font table is "written once at initialization and never overwritten by program execution": no step changes a
byte of 0x050 to 0x09F (10_state.md section 14, 20_memory.md section 3; the spec's decision D18). -/
def Obligations.FontIsNeverOverwritten : Prop :=
  ∀ (s t : State) (a : Nat), step s = .next t → 0x050 ≤ a → a ≤ 0x09F → t.mem.read a = s.mem.read a

/-- AN INVARIANT THAT EVERY STEP KEEPS: the fault latch describes the state it stands in (the text of R702, R703). -/
def Obligations.StepKeepsTheLatchTrue : Prop :=
  ∀ s t : State, s.latchDescribes → step s = .next t → t.latchDescribes

/-- Whatever the host does between cycles, in any order, on a machine with any `FONT_ROM`: memory is canonical, the font
table is intact, and the latch describes the state. -/
def Obligations.ReachableStatesAreSound : Prop :=
  ∀ (font : Vector Byte 80) (s : State), Reachable font s → s.mem.wf ∧ s.fontIs font ∧ s.latchDescribes

/-! ## What an instruction leaves alone -/

/-- The W columns of the access matrix (the text of R118) as a frame of every instruction: an execution that does not
fault changes a register, I, PC, the stack, a timer, the framebuffer or a byte of memory only where the matrix allows
it, and never the keypad. -/
def Obligations.EveryInstructionKeepsItsFrame : Prop :=
  ∀ (i : Instr) (s t : State), exec i s = .next t → s.halt = none → t.halt = none →
    (∀ r, writesReg i r = false → t.reg r = s.reg r) ∧
    ((∀ nnn x, i ≠ .ldI nnn ∧ i ≠ .addIV x ∧ i ≠ .ldFV x) → t.i = s.i) ∧
    (writesPc i = false → t.pc = s.pc) ∧
    ((∀ nnn, i ≠ .ret ∧ i ≠ .call nnn) → t.sp = s.sp ∧ t.stack = s.stack) ∧
    ((∀ x, i ≠ .ldDtV x) → t.dt = s.dt) ∧
    ((∀ x, i ≠ .ldStV x) → t.st = s.st) ∧
    ((∀ x y n, i ≠ .cls ∧ i ≠ .drw x y n) → t.fb = s.fb) ∧
    ((∀ x kk, i ≠ .rnd x kk) → t.draws = s.draws) ∧
    t.key = s.key ∧
    ∀ a, (a < s.i.toNat ∨ s.i.toNat + storedBytes i ≤ a) → t.mem.read a = s.mem.read a

/-- R108: `CALL` at depth 16 and `RET` at depth 0 are fatal, and no other instruction reads or writes SP or a stack slot:
with any other depth and slots it does the same, and leaves them as they are. -/
def Obligations.OnlyCallAndRetAccessTheStack : Prop :=
  (∀ (nnn : Imm12) (s : State), s.sp.val = 16 →
    ∃ t r, exec (.call nnn) s = .next t ∧ t.halt = some r ∧ r.code = .stackOverflow) ∧
  (∀ s : State, s.sp.val = 0 → ∃ t r, exec .ret s = .next t ∧ t.halt = some r ∧ r.code = .stackUnderflow) ∧
  ∀ (i : Instr) (s t : State) (p : Fin 17) (k : Vector Word 16), (∀ nnn, i ≠ .ret ∧ i ≠ .call nnn) →
    exec i s = .next t → exec i { s with sp := p, stack := k } = .next { t with sp := p, stack := k }

/-- The timers are read and written by their own instructions only (the text of R110): any other instruction does the
same with any other timer value and leaves it, and a timer write does not depend on the timer's old value. ST is read by
none. -/
def Obligations.TimersAreTouchedByTheirInstructionsOnly : Prop :=
  ∀ (i : Instr) (s t : State) (b : Byte), exec i s = .next t →
    ((∀ x, i ≠ .ldVDt x ∧ i ≠ .ldDtV x) → exec i { s with dt := b } = .next { t with dt := b }) ∧
    ((∀ x, i ≠ .ldStV x) → exec i { s with st := b } = .next { t with st := b }) ∧
    ((∃ x, i = .ldDtV x) → exec i { s with dt := b } = .next t) ∧
    ((∃ x, i = .ldStV x) → exec i { s with st := b } = .next t)

/-- The R columns of the access matrix (the text of R118) for the framebuffer, the keypad and I: an instruction outside
the column does the same with any other contents, and leaves them. -/
def Obligations.UnreadStateIsCarriedThrough : Prop :=
  ∀ (i : Instr) (s t : State), exec i s = .next t →
    (∀ fb, (∀ x y n, i ≠ .cls ∧ i ≠ .drw x y n) → exec i { s with fb := fb } = .next { t with fb := fb }) ∧
    (∀ key, (∀ x, i ≠ .skp x ∧ i ≠ .sknp x ∧ i ≠ .ldVKey x) →
      exec i { s with key := key } = .next { t with key := key }) ∧
    (∀ w, (∀ nnn x y n, i ≠ .ldI nnn ∧ i ≠ .addIV x ∧ i ≠ .ldFV x ∧ i ≠ .drw x y n ∧ i ≠ .ldBV x ∧ i ≠ .ldMiV x ∧
      i ≠ .ldVMi x) → exec i { s with i := w } = .next { t with i := w })

/-! ## Timers, cycle by cycle -/

/-- A cycle that does not fault and does not set the timer takes it down by one, and leaves it at 0 (the text of R333,
R740; natural subtraction). -/
def Obligations.TimersCountDownOnceACycle : Prop :=
  ∀ (s t : State), s.halt = none → step s = .next t → t.halt = none →
    ((∀ x, decodeWord (s.mem.read s.pc.toNat ++ s.mem.read (s.pc.toNat + 1)) ≠ .ok (.ldDtV x)) →
      t.dt.toNat = s.dt.toNat - 1) ∧
    ((∀ x, decodeWord (s.mem.read s.pc.toNat ++ s.mem.read (s.pc.toNat + 1)) ≠ .ok (.ldStV x)) →
      t.st.toNat = s.st.toNat - 1)

/-- A timer set to v ends that cycle at v - 1, or at 0 (the text of R333, R812; the spec's decision D24). -/
def Obligations.TimerWriteTicksInTheSameCycle : Prop :=
  ∀ (s : State) (x : Reg), s.halt = none → s.pc.toNat + 1 < 4096 →
    (decodeWord (s.mem.read s.pc.toNat ++ s.mem.read (s.pc.toNat + 1)) = .ok (.ldDtV x) →
      ∃ t, step s = .next t ∧ t.dt.toNat = (s.reg x).toNat - 1 ∧ t.st.toNat = s.st.toNat - 1 ∧
        t = { s with pc := s.pc + 2#16, dt := t.dt, st := t.st }) ∧
    (decodeWord (s.mem.read s.pc.toNat ++ s.mem.read (s.pc.toNat + 1)) = .ok (.ldStV x) →
      ∃ t, step s = .next t ∧ t.st.toNat = (s.reg x).toNat - 1 ∧ t.dt.toNat = s.dt.toNat - 1 ∧
        t = { s with pc := s.pc + 2#16, dt := t.dt, st := t.st })

/-! ## Control flow -/

/-- RET (the text of R401). The record at depth 0, a next state whose latch names the fetch address (exec's PC minus 2),
is the spec's decisions D6 and D7 as log entries 1 and 2 read them. -/
def Obligations.RetResult : Prop :=
  (∀ g : BitVec 8, decodeWord (0x0#4 ++ g ++ 0xE#4) = .ok .ret) ∧
  ∀ s : State,
    (s.sp.val ≠ 0 → ∃ t, exec .ret s = .next t ∧ t.sp.val = s.sp.val - 1 ∧
      t.pc = s.stack[s.sp.val - 1]'(by omega) ∧ t = { s with sp := t.sp, pc := t.pc }) ∧
    (s.sp.val = 0 → ∃ t op, exec .ret s = .next t ∧ t.halt = some ⟨.stackUnderflow, s.pc - 2#16, op, none⟩)

/-- R402: JP. -/
def Obligations.JpResult : Prop :=
  (∀ nnn : BitVec 12, decodeWord (0x1#4 ++ nnn) = .ok (.jp nnn)) ∧
  ∀ (nnn : Imm12) (s : State),
    ∃ t, exec (.jp nnn) s = .next t ∧ t.pc.toNat = nnn.toNat ∧ t = { s with pc := t.pc }

/-- CALL (the text of R403). The record at depth 16, a next state whose latch names the fetch address (exec's PC minus 2),
is the spec's decisions D6 and D7 as log entries 1 and 2 read them. -/
def Obligations.CallResult : Prop :=
  (∀ nnn : BitVec 12, decodeWord (0x2#4 ++ nnn) = .ok (.call nnn)) ∧
  ∀ (nnn : Imm12) (s : State),
    (s.sp.val ≠ 16 → ∃ t, exec (.call nnn) s = .next t ∧
      (∀ j : Fin 16, t.stack[j.val] = if j.val = s.sp.val then s.pc else s.stack[j.val]) ∧
      t.sp.val = s.sp.val + 1 ∧ t.pc.toNat = nnn.toNat ∧
      t = { s with stack := t.stack, sp := t.sp, pc := t.pc }) ∧
    (s.sp.val = 16 → ∃ t op, exec (.call nnn) s = .next t ∧ t.halt = some ⟨.stackOverflow, s.pc - 2#16, op, none⟩)

/-- "CALL addr followed eventually by RET restores the program counter to the instruction immediately after the original
CALL": whatever ran in between, when RET finds the stack as CALL left it. -/
def Obligations.CallThenRetComesBack : Prop :=
  ∀ (nnn : Imm12) (s t u : State), s.halt = none → exec (.call nnn) s = .next t → t.halt = none →
    u.sp = t.sp → u.stack = t.stack → exec .ret u = .next { u with sp := s.sp, pc := s.pc }

/-- R404 to R407: the four skips on registers and immediates; nothing but PC changes. -/
def Obligations.SkipResults : Prop :=
  ((∀ (x : BitVec 4) (kk : BitVec 8), decodeWord (0x3#4 ++ x ++ kk) = .ok (.seVkk x.toFin kk)) ∧
   (∀ (x : BitVec 4) (kk : BitVec 8), decodeWord (0x4#4 ++ x ++ kk) = .ok (.sneVkk x.toFin kk)) ∧
   (∀ x y g : BitVec 4, decodeWord (0x5#4 ++ x ++ y ++ g) = .ok (.seVV x.toFin y.toFin)) ∧
   (∀ x y g : BitVec 4, decodeWord (0x9#4 ++ x ++ y ++ g) = .ok (.sneVV x.toFin y.toFin))) ∧
  ∀ (x y : Reg) (kk : Byte) (s : State),
    exec (.seVkk x kk) s = .next { s with pc := if s.reg x = kk then s.pc + 2#16 else s.pc } ∧
    exec (.sneVkk x kk) s = .next { s with pc := if s.reg x = kk then s.pc else s.pc + 2#16 } ∧
    exec (.seVV x y) s = .next { s with pc := if s.reg x = s.reg y then s.pc + 2#16 else s.pc } ∧
    exec (.sneVV x y) s = .next { s with pc := if s.reg x = s.reg y then s.pc else s.pc + 2#16 }

/-- SKP and SKNP (the text of R408, R409): the key V[x] names decides; above 15 the fault, with the index (the spec's
decision D21). That everything else is then as before the cycle, with PC and the record's pc at exec's PC minus 2, is the
spec's decision D6 (R701, R704) and log entry 2. -/
def Obligations.KeySkipResults : Prop :=
  ∀ (x : Reg) (s : State),
    (∀ k : Fin 16, (s.reg x).toNat = k.val →
      exec (.skp x) s = .next { s with pc := if s.key[k.val] = true then s.pc + 2#16 else s.pc } ∧
      exec (.sknp x) s = .next { s with pc := if s.key[k.val] = false then s.pc + 2#16 else s.pc }) ∧
    (15 < (s.reg x).toNat → ∃ op,
      exec (.skp x) s = .next { s with
        pc := s.pc - 2#16
        halt := some ⟨.keyIndexOutOfRange, s.pc - 2#16, op, some ((s.reg x).setWidth 17)⟩ } ∧
      exec (.sknp x) s = .next { s with
        pc := s.pc - 2#16
        halt := some ⟨.keyIndexOutOfRange, s.pc - 2#16, op, some ((s.reg x).setWidth 17)⟩ })

/-- JP V0 (the text of R410): nnn plus V0, always V0 (the spec's decision D14). -/
def Obligations.JpV0Result : Prop :=
  ∀ (nnn : Imm12) (s : State),
    ∃ t, exec (.jpV0 nnn) s = .next t ∧ t.pc.toNat = nnn.toNat + (s.reg 0).toNat ∧ t = { s with pc := t.pc }

/-! ## Arithmetic, logic, shifts: exact naturals, narrowed modulo 256 -/

/-- ADD Vx, kk (the text of R452): modulo 256, no flag (the spec's decision D9). -/
def Obligations.AddImmediateResult : Prop :=
  ∀ (x : Reg) (kk : Byte) (s : State), ∃ t, exec (.addVkk x kk) s = .next t ∧
    (∀ r, (t.reg r).toNat = if r = x then ((s.reg x).toNat + kk.toNat) % 256 else (s.reg r).toNat) ∧
    t = { s with v := t.v }

/-- OR, AND, XOR (the text of R453 to R455), bit by bit; VF is not written (the spec's decision D10). -/
def Obligations.LogicResults : Prop :=
  ∀ (x y : Reg) (s : State),
    (∃ t, exec (.or x y) s = .next t ∧ (∀ (r : Reg) (b : Nat), (t.reg r).getLsbD b =
      if r = x then ((s.reg x).getLsbD b || (s.reg y).getLsbD b) else (s.reg r).getLsbD b) ∧ t = { s with v := t.v }) ∧
    (∃ t, exec (.and x y) s = .next t ∧ (∀ (r : Reg) (b : Nat), (t.reg r).getLsbD b =
      if r = x then ((s.reg x).getLsbD b && (s.reg y).getLsbD b) else (s.reg r).getLsbD b) ∧ t = { s with v := t.v }) ∧
    (∃ t, exec (.xor x y) s = .next t ∧ (∀ (r : Reg) (b : Nat), (t.reg r).getLsbD b =
      if r = x then ((s.reg x).getLsbD b ^^ (s.reg y).getLsbD b) else (s.reg r).getLsbD b) ∧ t = { s with v := t.v })

/-- ADD Vx, Vy (the text of R456); the flag is 1 iff the exact sum exceeds 255. For x = F the flag wins and for y = F the
operand is the old VF (the spec's decision D11, R451). -/
def Obligations.AddRegistersResult : Prop :=
  (∀ x y : BitVec 4, decodeWord (0x8#4 ++ x ++ y ++ 0x4#4) = .ok (.addVV x.toFin y.toFin)) ∧
  ∀ (x y : Reg) (s : State), ∃ t, exec (.addVV x y) s = .next t ∧
    (∀ r, (t.reg r).toNat =
      if r = 15 then (if (s.reg x).toNat + (s.reg y).toNat > 255 then 1 else 0)
      else if r = x then ((s.reg x).toNat + (s.reg y).toNat) % 256 else (s.reg r).toNat) ∧
    t = { s with v := t.v }

/-- SUB and SUBN (the text of R457, R459); the difference modulo 256 over the integers, the flag 1 iff no borrow. For
x = F the flag wins and for y = F the operand is the old VF (the spec's decision D11, R451). -/
def Obligations.SubtractResults : Prop :=
  ((∀ x y : BitVec 4, decodeWord (0x8#4 ++ x ++ y ++ 0x5#4) = .ok (.sub x.toFin y.toFin)) ∧
   (∀ x y : BitVec 4, decodeWord (0x8#4 ++ x ++ y ++ 0x7#4) = .ok (.subn x.toFin y.toFin))) ∧
  ∀ (x y : Reg) (s : State),
    (∃ t, exec (.sub x y) s = .next t ∧
      (∀ r, ((t.reg r).toNat : Int) =
        if r = 15 then (if (s.reg x).toNat ≥ (s.reg y).toNat then 1 else 0)
        else if r = x then ((s.reg x).toNat - (s.reg y).toNat : Int) % 256 else (s.reg r).toNat) ∧
      t = { s with v := t.v }) ∧
    (∃ t, exec (.subn x y) s = .next t ∧
      (∀ r, ((t.reg r).toNat : Int) =
        if r = 15 then (if (s.reg y).toNat ≥ (s.reg x).toNat then 1 else 0)
        else if r = x then ((s.reg y).toNat - (s.reg x).toNat : Int) % 256 else (s.reg r).toNat) ∧
      t = { s with v := t.v })

/-- SHR and SHL (the text of R458, R460): Vx in place by one, Vy ignored (the spec's decision D12), the flag the bit
shifted out, written last. -/
def Obligations.ShiftResults : Prop :=
  ∀ (x y : Reg) (s : State),
    (∃ t, exec (.shr x y) s = .next t ∧
      (∀ r, (t.reg r).toNat = if r = 15 then (s.reg x).toNat % 2
        else if r = x then (s.reg x).toNat / 2 else (s.reg r).toNat) ∧ t = { s with v := t.v }) ∧
    (∃ t, exec (.shl x y) s = .next t ∧
      (∀ r, (t.reg r).toNat = if r = 15 then (s.reg x).toNat / 128
        else if r = x then ((s.reg x).toNat * 2) % 256 else (s.reg r).toNat) ∧ t = { s with v := t.v })

/-! ## Load, move, random -/

/-- R500, R501: LD Vx, kk and LD Vx, Vy. -/
def Obligations.LoadRegisterResults : Prop :=
  ((∀ (x : BitVec 4) (kk : BitVec 8), decodeWord (0x6#4 ++ x ++ kk) = .ok (.ldVkk x.toFin kk)) ∧
   (∀ x y : BitVec 4, decodeWord (0x8#4 ++ x ++ y ++ 0x0#4) = .ok (.ldVV x.toFin y.toFin))) ∧
  ∀ (x y : Reg) (kk : Byte) (s : State),
    (∃ t, exec (.ldVkk x kk) s = .next t ∧ (∀ r, t.reg r = if r = x then kk else s.reg r) ∧ t = { s with v := t.v }) ∧
    (∃ t, exec (.ldVV x y) s = .next t ∧ (∀ r, t.reg r = if r = x then s.reg y else s.reg r) ∧ t = { s with v := t.v })

/-- R502: LD I, nnn. -/
def Obligations.LoadIndexResult : Prop :=
  (∀ nnn : BitVec 12, decodeWord (0xA#4 ++ nnn) = .ok (.ldI nnn)) ∧
  ∀ (nnn : Imm12) (s : State), ∃ t, exec (.ldI nnn) s = .next t ∧ t.i.toNat = nnn.toNat ∧ t = { s with i := t.i }

/-- RND (the text of R503): the masked random byte, whichever byte the input gives (the free value `Config.rnd`, log
entry 3), and the draw is used up. -/
def Obligations.RandomResult : Prop :=
  ∀ (x : Reg) (kk : Byte) (s : State), ∃ t, exec (.rnd x kk) s = .next t ∧
    (∀ r, t.reg r = if r = x then Config.rnd s.draws &&& kk else s.reg r) ∧
    t = { s with v := t.v, draws := s.draws + 1 }

/-! ## Display -/

/-- R550: CLS. -/
def Obligations.ClearResult : Prop :=
  (∀ g : BitVec 8, decodeWord (0x0#4 ++ g ++ 0x0#4) = .ok .cls) ∧
  ∀ s : State, ∃ t, exec .cls s = .next t ∧ (∀ r c, t.fb.pixel r c = false) ∧ t = { s with fb := t.fb }

/-- DRW (the text of R551, R552): when every sprite byte is in memory, pixel (r, c) flips exactly when some sprite bit
(7 - j) of byte k lands on it, rows wrapping at 32 and columns at 64, and VF is 1 iff one of them was lit. The
coordinates are the registers before VF is written (the spec's decision D19). -/
def Obligations.DrawResult : Prop :=
  ∀ (x y : Reg) (n : Fin 16) (s : State), (n.val = 0 ∨ s.i.toNat + n.val ≤ 4096) →
    let lands := fun (r : Fin 32) (c : Fin 64) => ∃ k < n.val, ∃ j < 8,
      ((s.reg y).toNat % 32 + k) % 32 = r.val ∧ ((s.reg x).toNat % 64 + j) % 64 = c.val ∧
      (s.mem.read (s.i.toNat + k)).getLsbD (7 - j) = true
    ∃ t, exec (.drw x y n) s = .next t ∧
      (∀ r c, (lands r c → t.fb.pixel r c = !s.fb.pixel r c) ∧ (¬ lands r c → t.fb.pixel r c = s.fb.pixel r c)) ∧
      ((∃ r c, lands r c ∧ s.fb.pixel r c = true) → t.reg 15 = 1#8) ∧
      ((¬ ∃ r c, lands r c ∧ s.fb.pixel r c = true) → t.reg 15 = 0#8) ∧
      (∀ r, r ≠ 15 → t.reg r = s.reg r) ∧ t = { s with fb := t.fb, v := t.v }

/-- "drawing the same 8×5 sprite twice at the same coordinates must leave the framebuffer fully cleared at those cells and
set VF=1 on the second draw", for every sprite: the second draw restores the framebuffer, and on a clear framebuffer it
sets VF exactly when the first one lit something (44_display.md; the coordinates are no VF, which the first draw
writes). -/
def Obligations.DrawingTwiceErases : Prop :=
  ∀ (x y : Reg) (n : Fin 16) (s t u : State), x ≠ 15 → y ≠ 15 → s.halt = none →
    exec (.drw x y n) s = .next t → t.halt = none → exec (.drw x y n) t = .next u →
    u.fb = s.fb ∧ ((∀ r c, s.fb.pixel r c = false) → (u.reg 15 = 1#8 ↔ t.fb ≠ s.fb))

/-! ## Family 0xF -/

/-- LD Vx, DT, LD DT, Vx and LD ST, Vx in the execute phase, before the tick (the text of R610, R612, R613). -/
def Obligations.TimerMoveResults : Prop :=
  ∀ (x : Reg) (s : State),
    (∃ t, exec (.ldVDt x) s = .next t ∧ (∀ r, t.reg r = if r = x then s.dt else s.reg r) ∧ t = { s with v := t.v }) ∧
    exec (.ldDtV x) s = .next { s with dt := s.reg x } ∧
    exec (.ldStV x) s = .next { s with st := s.reg x }

/-- R611: LD Vx, K latches the lowest pressed key; with no key pressed PC goes back by 2, and a whole cycle then leaves
everything but the timers, which tick. -/
def Obligations.KeyWaitResult : Prop :=
  (∀ x : BitVec 4, decodeWord (0xF#4 ++ x ++ 0x0A#8) = .ok (.ldVKey x.toFin)) ∧
  ∀ (x : Reg) (s : State),
    (∀ k : Fin 16, s.key[k.val] = true → (∀ j : Fin 16, j < k → s.key[j.val] = false) →
      ∃ t, exec (.ldVKey x) s = .next t ∧ (∀ r, (t.reg r).toNat = if r = x then k.val else (s.reg r).toNat) ∧
        t = { s with v := t.v }) ∧
    ((∀ k : Fin 16, s.key[k.val] = false) →
      exec (.ldVKey x) s = .next { s with pc := s.pc - 2#16 } ∧
      (s.halt = none → s.pc.toNat + 1 < 4096 →
        decodeWord (s.mem.read s.pc.toNat ++ s.mem.read (s.pc.toNat + 1)) = .ok (.ldVKey x) →
        ∃ t, step s = .next t ∧ t.dt.toNat = s.dt.toNat - 1 ∧ t.st.toNat = s.st.toNat - 1 ∧
          t = { s with dt := t.dt, st := t.st }))

/-- ADD I, Vx (the text of R614): modulo 2^16, VF not written, no check (the spec's decisions D4, D15). -/
def Obligations.AddIndexResult : Prop :=
  ∀ (x : Reg) (s : State), ∃ t, exec (.addIV x) s = .next t ∧
    t.i.toNat = (s.i.toNat + (s.reg x).toNat) % 65536 ∧ t = { s with i := t.i }

/-- LD F, Vx (the text of R615): the glyph of a digit up to 0x0F; above it what `FONT_HIGH_DIGIT` says, whichever it is
(the free value `Config.fontHighDigit`, log entry 4). -/
def Obligations.FontAddressResult : Prop :=
  ∀ (x : Reg) (s : State), ∃ t, exec (.ldFV x) s = .next t ∧ t = { s with i := t.i } ∧
    ((s.reg x).toNat ≤ 15 → t.i.toNat = 0x050 + 5 * (s.reg x).toNat) ∧
    (15 < (s.reg x).toNat → Config.fontHighDigit = .mask → t.i.toNat = 0x050 + 5 * ((s.reg x).toNat % 16)) ∧
    (15 < (s.reg x).toNat → Config.fontHighDigit = .linear → t.i.toNat = 0x050 + 5 * (s.reg x).toNat)

/-- LD B, Vx (the text of R616): three decimal digits from I up, when the addresses are memory and not the font table. -/
def Obligations.BcdResult : Prop :=
  ∀ (x : Reg) (s : State), s.i.toNat + 2 < 4096 → (s.i.toNat + 2 < 0x050 ∨ 0x09F < s.i.toNat) →
    ∃ t, exec (.ldBV x) s = .next t ∧
      (t.mem.read s.i.toNat).toNat = (s.reg x).toNat / 100 ∧
      (t.mem.read (s.i.toNat + 1)).toNat = (s.reg x).toNat / 10 % 10 ∧
      (t.mem.read (s.i.toNat + 2)).toNat = (s.reg x).toNat % 10 ∧
      (∀ a, (a < s.i.toNat ∨ s.i.toNat + 2 < a) → t.mem.read a = s.mem.read a) ∧
      t = { s with mem := t.mem }

/-- LD [I], Vx (the text of R617): Vk to I + k for every k up to x, I unchanged (the spec's decision D13). -/
def Obligations.BlockStoreResult : Prop :=
  ∀ (x : Reg) (s : State), s.i.toNat + x.val < 4096 → (s.i.toNat + x.val < 0x050 ∨ 0x09F < s.i.toNat) →
    ∃ t, exec (.ldMiV x) s = .next t ∧
      (∀ k : Reg, k ≤ x → t.mem.read (s.i.toNat + k.val) = s.reg k) ∧
      (∀ a, (a < s.i.toNat ∨ s.i.toNat + x.val < a) → t.mem.read a = s.mem.read a) ∧
      t = { s with mem := t.mem }

/-- LD Vx, [I] (the text of R618): Vk from I + k for every k up to x, I unchanged (the spec's decision D13). -/
def Obligations.BlockLoadResult : Prop :=
  ∀ (x : Reg) (s : State), s.i.toNat + x.val < 4096 →
    ∃ t, exec (.ldVMi x) s = .next t ∧
      (∀ k : Reg, t.reg k = if k ≤ x then s.mem.read (s.i.toNat + k.val) else s.reg k) ∧
      t = { s with v := t.v }

/-- What a block store put in memory a block load of the same registers reads back, whatever the registers held in
between (the text of R617, R618). -/
def Obligations.BlockStoreThenLoad : Prop :=
  ∀ (x : Reg) (s t u : State), s.halt = none → exec (.ldMiV x) s = .next t → t.halt = none →
    u.mem = t.mem → u.i = t.i →
    ∃ w, exec (.ldVMi x) u = .next w ∧ (∀ k : Reg, w.reg k = if k ≤ x then s.reg k else u.reg k) ∧
      w = { u with v := w.v }

/-- Instruction-fetch coherence (the text of R211): two bytes a block store puts at PC are what the next fetch decodes. -/
def Obligations.StoredBytesAreFetched : Prop :=
  ∀ (x : Reg) (s t : State), s.halt = none → exec (.ldMiV x) s = .next t → t.halt = none → 1 ≤ x → t.pc = s.i →
    t.fetch = .ok (s.reg 0 ++ s.reg 1)

/-! ## Reset and the host's ports -/

/-- Every piece of state after reset (the text of R119), for every `FONT_ROM`; the `reset` port restores it from any state
(R800, the spec's decision D28; that the table is the port's argument is log entry 13, DESIGN CHOICE). -/
def Obligations.ResetValues : Prop :=
  ∀ (font : Vector Byte 80) (before : State),
    let s := portReset font before
    (∀ k : Fin 80, s.mem.read (0x050 + k.val) = font[k.val]) ∧
    (∀ a, (a < 0x050 ∨ 0x09F < a) → s.mem.read a = 0x00#8) ∧
    (∀ r, s.reg r = 0x00#8) ∧ s.i = 0x0000#16 ∧ s.pc = 0x0200#16 ∧ s.sp.val = 0 ∧
    (∀ j : Fin 16, s.stack[j.val] = 0x0000#16) ∧ s.dt = 0x00#8 ∧ s.st = 0x00#8 ∧
    (∀ r c, s.fb.pixel r c = false) ∧ (∀ k : Fin 16, s.key[k.val] = false) ∧ s.halt = none

/-- `State.reset` is the reset state of the machine with the spec's default `FONT_ROM` (the table of R130, which the spec
marks as from general knowledge; PRESUMED, log entry 5). -/
def Obligations.ResetHasTheDefaultFont : Prop :=
  State.reset = State.resetWith
    ((#v[0xF0, 0x90, 0x90, 0x90, 0xF0, 0x20, 0x60, 0x20, 0x20, 0x70, 0xF0, 0x10, 0xF0, 0x80, 0xF0, 0xF0, 0x10, 0xF0, 0x10,
        0xF0, 0x90, 0x90, 0xF0, 0x10, 0x10, 0xF0, 0x80, 0xF0, 0x10, 0xF0, 0xF0, 0x80, 0xF0, 0x90, 0xF0, 0xF0, 0x10, 0x20,
        0x40, 0x40] : Vector Byte 40) ++
     (#v[0xF0, 0x90, 0xF0, 0x90, 0xF0, 0xF0, 0x90, 0xF0, 0x10, 0xF0, 0xF0, 0x90, 0xF0, 0x90, 0x90, 0xE0, 0x90, 0xE0, 0x90,
        0xE0, 0xF0, 0x80, 0x80, 0x80, 0xF0, 0xE0, 0x90, 0x90, 0x90, 0xE0, 0xF0, 0x80, 0xF0, 0x80, 0xF0, 0xF0, 0x80, 0xF0,
        0x80, 0x80] : Vector Byte 40))

/-- The load port (the text of R212): at most 3584 bytes go to 0x200 and up and nothing else changes; more are refused
with nothing changed (the spec's decision D29). -/
def Obligations.LoadPortResult : Prop :=
  ∀ (image : List Byte) (s : State),
    (image.length ≤ 3584 → ∃ t, portLoad image s = .ok t ∧
      (∀ (k : Nat) (h : k < image.length), t.mem.read (0x200 + k) = image[k]) ∧
      (∀ a, (a < 0x200 ∨ 0x200 + image.length ≤ a) → t.mem.read a = s.mem.read a) ∧
      t = { s with mem := t.mem }) ∧
    (3584 < image.length → portLoad image s = .error .programTooLarge)

/-- The keypad and framebuffer ports (the text of R731, R732, R715): in range they write one key or show one pixel; out of
range they answer HostIndexOutOfRange. The sound output is ST not 0 (R735) and the status port shows DT, ST and the latch
(R733; `StatusShowsTheWholeState` has the rest). -/
def Obligations.HostPortResults : Prop :=
  ∀ (s : State) (k r c : Nat) (b : Bool),
    (k ≤ 15 → ∃ t, portKeySet k b s = .ok t ∧ t = { s with key := t.key } ∧
      ∀ j : Fin 16, t.key[j.val] = if j.val = k then b else s.key[j.val]) ∧
    (15 < k → portKeySet k b s = .error .hostIndexOutOfRange) ∧
    (∀ (hr : r < 32) (hc : c < 64), portPixel r c s = .ok ((s.fb[r])[c])) ∧
    (31 < r ∨ 63 < c → portPixel r c s = .error .hostIndexOutOfRange) ∧
    (portSoundOn s = true ↔ s.st.toNat ≠ 0) ∧
    (portStatus s).dt = s.dt ∧ (portStatus s).st = s.st ∧ (portStatus s).halt = s.halt

/-- The status port shows the whole state record (the text of R733, R114; the spec's decision D1): every component as it
is, the fault's code under its number of R702 (the spec's decision D7), and two states that show the same differ in the
model's own draw count alone (log entry 3). -/
def Obligations.StatusShowsTheWholeState : Prop :=
  ∀ s : State,
    ((∀ a, (portStatus s).mem.read a = s.mem.read a) ∧ (∀ r : Reg, (portStatus s).v[r.val] = s.reg r) ∧
      (portStatus s).i = s.i ∧ (portStatus s).pc = s.pc ∧ (portStatus s).sp = s.sp ∧
      (∀ j : Fin 16, (portStatus s).stack[j.val] = s.stack[j.val]) ∧ (portStatus s).dt = s.dt ∧ (portStatus s).st = s.st ∧
      (∀ r c, (portStatus s).fb.pixel r c = s.fb.pixel r c) ∧ (∀ k : Fin 16, (portStatus s).key[k.val] = s.key[k.val]) ∧
      (portStatus s).halt = s.halt) ∧
    (s.halt = none → (portStatus s).haltCode = none) ∧
    (∀ r, s.halt = some r → ∃ n, (portStatus s).haltCode = some n ∧ n.toNat = match r.code with
      | .unknownOpcode => 1
      | .stackOverflow => 2
      | .stackUnderflow => 3
      | .memoryOutOfRange => 4
      | .keyIndexOutOfRange => 5
      | .protectedWrite => 6) ∧
    ∀ t : State, portStatus s = portStatus t ↔ t = { s with draws := t.draws }
end

