-- ==== Sys2Proof/Laws/Decode.lean ====
section
/-! SUPPORT. The fields of a word written field by field, in each format of 30_encoding.md R301. -/

namespace Sys2Proof

@[simp] theorem fieldPrimary_nnn (p : BitVec 4) (m : BitVec 12) : fieldPrimary (p ++ m) = p := by
  unfold fieldPrimary; ext i hi; simp; grind

@[simp] theorem fieldNnn_nnn (p : BitVec 4) (m : BitVec 12) : fieldNnn (p ++ m) = m := by
  unfold fieldNnn; ext i hi; simp; grind

@[simp] theorem fieldPrimary_xkk (p x : BitVec 4) (kk : BitVec 8) : fieldPrimary (p ++ x ++ kk) = p := by
  unfold fieldPrimary; ext i hi; simp; grind

@[simp] theorem fieldX_xkk (p x : BitVec 4) (kk : BitVec 8) : fieldX (p ++ x ++ kk) = x.toFin := by
  unfold fieldX; congr 1; ext i hi; simp; grind

@[simp] theorem fieldKk_xkk (p x : BitVec 4) (kk : BitVec 8) : fieldKk (p ++ x ++ kk) = kk := by
  unfold fieldKk; ext i hi; simp; grind

@[simp] theorem fieldPrimary_xyn (p x y n : BitVec 4) : fieldPrimary (p ++ x ++ y ++ n) = p := by
  unfold fieldPrimary; ext i hi; simp; grind

@[simp] theorem fieldX_xyn (p x y n : BitVec 4) : fieldX (p ++ x ++ y ++ n) = x.toFin := by
  unfold fieldX; congr 1; ext i hi; simp; grind

@[simp] theorem fieldY_xyn (p x y n : BitVec 4) : fieldY (p ++ x ++ y ++ n) = y.toFin := by
  unfold fieldY; congr 1; ext i hi; simp; grind

@[simp] theorem fieldKey_xyn (p x y n : BitVec 4) : fieldKey (p ++ x ++ y ++ n) = n := by
  unfold fieldKey; ext i hi; simp; grind

@[simp] theorem fieldN_xyn (p x y n : BitVec 4) : fieldN (p ++ x ++ y ++ n) = n.toFin := by
  simp [fieldN]

/-- Family 0x0 words: the primary nibble, eight ignored bits, the key (R312). -/
@[simp] theorem fieldPrimary_k0 (p : BitVec 4) (g : BitVec 8) (k : BitVec 4) : fieldPrimary (p ++ g ++ k) = p := by
  unfold fieldPrimary; ext i hi; simp; grind

@[simp] theorem fieldKey_k0 (p : BitVec 4) (g : BitVec 8) (k : BitVec 4) : fieldKey (p ++ g ++ k) = k := by
  unfold fieldKey; ext i hi; simp; grind

/-- A sub-key byte's low nibble is the key of family 0xE (R314). -/
@[simp] theorem fieldKey_xkk (p x : BitVec 4) (kk : BitVec 8) : fieldKey (p ++ x ++ kk) = kk.extractLsb' 0 4 := by
  unfold fieldKey; ext i hi; simp; grind

/-- The two bytes of a word make the word again (20_memory.md R206). -/
@[simp] theorem wordOfBytes_bytes (w : Word) : wordOfBytes (highByte w) (lowByte w) = w := by
  unfold wordOfBytes highByte lowByte; ext i hi; simp; grind

/-! ## Words under a mask, field by field -/

/-- A word is its four nibbles. -/
theorem word_eq_nibbles (op : Word) :
    op = op.extractLsb' 12 4 ++ op.extractLsb' 8 4 ++ op.extractLsb' 4 4 ++ op.extractLsb' 0 4 := by
  ext i hi; simp; grind

/-- Two words that agree under a mask agree in a field the mask covers. -/
theorem field_eq_of_masked_eq {a b m : Word} (s l : Nat) (h : a &&& m = b &&& m)
    (hm : m.extractLsb' s l = BitVec.allOnes l) : a.extractLsb' s l = b.extractLsb' s l := by
  have := congrArg (·.extractLsb' s l) h
  simpa [BitVec.extractLsb'_and, hm] using this

/-- Two words that agree under a mask nibble by nibble agree under it. -/
theorem masked_eq_of_nibbles {a b m : Word}
    (h3 : a.extractLsb' 12 4 &&& m.extractLsb' 12 4 = b.extractLsb' 12 4 &&& m.extractLsb' 12 4)
    (h2 : a.extractLsb' 8 4 &&& m.extractLsb' 8 4 = b.extractLsb' 8 4 &&& m.extractLsb' 8 4)
    (h1 : a.extractLsb' 4 4 &&& m.extractLsb' 4 4 = b.extractLsb' 4 4 &&& m.extractLsb' 4 4)
    (h0 : a.extractLsb' 0 4 &&& m.extractLsb' 0 4 = b.extractLsb' 0 4 &&& m.extractLsb' 0 4) : a &&& m = b &&& m := by
  rw [word_eq_nibbles (a &&& m), word_eq_nibbles (b &&& m)]
  simp only [BitVec.extractLsb'_and, h3, h2, h1, h0]

end Sys2Proof
end

