-- ==== Sys2Proof/Laws/State.lean ====
section
/-! SUPPORT. What each named update of the state does to each field: one lemma per update, its conjuncts one per field,
all by rfl and all simp rules, so that no later proof unfolds a record update. -/

namespace Sys2Proof.Machine

/-! ## Registers -/

theorem State.reg_eq (s : State) (r : Reg) : s.reg r = s.v[r.val] := rfl

@[simp] theorem State.reg_setReg (s : State) (x r : Reg) (b : Byte) :
    (s.setReg x b).reg r = if r = x then b else s.reg r := by
  simp only [State.reg, State.setReg, Vector.getElem_set, Fin.val_inj]
  split <;> simp_all [eq_comm]

@[simp] theorem State.setReg_fields (s : State) (x : Reg) (b : Byte) :
    (s.setReg x b).mem = s.mem ∧ (s.setReg x b).i = s.i ∧ (s.setReg x b).pc = s.pc ∧ (s.setReg x b).sp = s.sp ∧
    (s.setReg x b).stack = s.stack ∧ (s.setReg x b).dt = s.dt ∧ (s.setReg x b).st = s.st ∧
    (s.setReg x b).fb = s.fb ∧ (s.setReg x b).key = s.key ∧ (s.setReg x b).halt = s.halt ∧
    (s.setReg x b).draws = s.draws :=
  ⟨rfl, rfl, rfl, rfl, rfl, rfl, rfl, rfl, rfl, rfl, rfl⟩

/-- A register write changes the register file alone. -/
theorem State.setReg_frame (s : State) (x : Reg) (b : Byte) : s.setReg x b = { s with v := (s.setReg x b).v } := rfl

@[simp] theorem State.reg_setFlag (s : State) (r : Reg) (f : Bool) :
    (s.setFlag f).reg r = if r = 15 then flagByte f else s.reg r := s.reg_setReg vf r (flagByte f)

@[simp] theorem State.setFlag_fields (s : State) (f : Bool) :
    (s.setFlag f).mem = s.mem ∧ (s.setFlag f).i = s.i ∧ (s.setFlag f).pc = s.pc ∧ (s.setFlag f).sp = s.sp ∧
    (s.setFlag f).stack = s.stack ∧ (s.setFlag f).dt = s.dt ∧ (s.setFlag f).st = s.st ∧ (s.setFlag f).fb = s.fb ∧
    (s.setFlag f).key = s.key ∧ (s.setFlag f).halt = s.halt ∧ (s.setFlag f).draws = s.draws :=
  s.setReg_fields vf (flagByte f)

/-- The flag stands last: with x = 15 it is what VF holds (42_alu.md R451). -/
@[simp] theorem State.reg_setRegFlag (s : State) (x r : Reg) (b : Byte) (f : Bool) :
    (s.setRegFlag x b f).reg r = if r = 15 then flagByte f else if r = x then b else s.reg r := by
  simp [State.setRegFlag]

@[simp] theorem State.setRegFlag_fields (s : State) (x : Reg) (b : Byte) (f : Bool) :
    (s.setRegFlag x b f).mem = s.mem ∧ (s.setRegFlag x b f).i = s.i ∧ (s.setRegFlag x b f).pc = s.pc ∧
    (s.setRegFlag x b f).sp = s.sp ∧ (s.setRegFlag x b f).stack = s.stack ∧ (s.setRegFlag x b f).dt = s.dt ∧
    (s.setRegFlag x b f).st = s.st ∧ (s.setRegFlag x b f).fb = s.fb ∧ (s.setRegFlag x b f).key = s.key ∧
    (s.setRegFlag x b f).halt = s.halt ∧ (s.setRegFlag x b f).draws = s.draws :=
  ⟨rfl, rfl, rfl, rfl, rfl, rfl, rfl, rfl, rfl, rfl, rfl⟩

theorem State.setRegFlag_frame (s : State) (x : Reg) (b : Byte) (f : Bool) :
    s.setRegFlag x b f = { s with v := (s.setRegFlag x b f).v } := rfl

@[simp] theorem State.setI_fields (s : State) (w : Word) :
    (s.setI w).mem = s.mem ∧ (s.setI w).v = s.v ∧ (s.setI w).i = w ∧ (s.setI w).pc = s.pc ∧ (s.setI w).sp = s.sp ∧
    (s.setI w).stack = s.stack ∧ (s.setI w).dt = s.dt ∧ (s.setI w).st = s.st ∧ (s.setI w).fb = s.fb ∧
    (s.setI w).key = s.key ∧ (s.setI w).halt = s.halt ∧ (s.setI w).draws = s.draws :=
  ⟨rfl, rfl, rfl, rfl, rfl, rfl, rfl, rfl, rfl, rfl, rfl, rfl⟩

@[simp] theorem State.setPc_fields (s : State) (w : Word) :
    (s.setPc w).mem = s.mem ∧ (s.setPc w).v = s.v ∧ (s.setPc w).i = s.i ∧ (s.setPc w).pc = w ∧ (s.setPc w).sp = s.sp ∧
    (s.setPc w).stack = s.stack ∧ (s.setPc w).dt = s.dt ∧ (s.setPc w).st = s.st ∧ (s.setPc w).fb = s.fb ∧
    (s.setPc w).key = s.key ∧ (s.setPc w).halt = s.halt ∧ (s.setPc w).draws = s.draws :=
  ⟨rfl, rfl, rfl, rfl, rfl, rfl, rfl, rfl, rfl, rfl, rfl, rfl⟩

@[simp] theorem State.advance_fields (s : State) :
    s.advance.mem = s.mem ∧ s.advance.v = s.v ∧ s.advance.i = s.i ∧ s.advance.pc = s.pc + 2#16 ∧ s.advance.sp = s.sp ∧
    s.advance.stack = s.stack ∧ s.advance.dt = s.dt ∧ s.advance.st = s.st ∧ s.advance.fb = s.fb ∧
    s.advance.key = s.key ∧ s.advance.halt = s.halt ∧ s.advance.draws = s.draws :=
  ⟨rfl, rfl, rfl, rfl, rfl, rfl, rfl, rfl, rfl, rfl, rfl, rfl⟩

@[simp] theorem State.rewind_fields (s : State) :
    s.rewind.mem = s.mem ∧ s.rewind.v = s.v ∧ s.rewind.i = s.i ∧ s.rewind.pc = s.pc - 2#16 ∧ s.rewind.sp = s.sp ∧
    s.rewind.stack = s.stack ∧ s.rewind.dt = s.dt ∧ s.rewind.st = s.st ∧ s.rewind.fb = s.fb ∧
    s.rewind.key = s.key ∧ s.rewind.halt = s.halt ∧ s.rewind.draws = s.draws :=
  ⟨rfl, rfl, rfl, rfl, rfl, rfl, rfl, rfl, rfl, rfl, rfl, rfl⟩

/-- Undoing the fetch advance gives the state at the start of the cycle (60_exceptions.md R701). -/
@[simp] theorem State.rewind_advance (s : State) : s.advance.rewind = s := by
  cases s; simp [State.rewind, State.advance, State.setPc]

/-- A skip changes PC alone (41_control_flow.md R400). -/
theorem State.skipIf_eq (s : State) (c : Bool) :
    s.skipIf c = { s with pc := if c then s.pc + 2#16 else s.pc } := by
  cases c <;> rfl

@[simp] theorem State.reg_setPc (s : State) (w : Word) (r : Reg) : (s.setPc w).reg r = s.reg r := rfl
@[simp] theorem State.reg_advance (s : State) (r : Reg) : s.advance.reg r = s.reg r := rfl
@[simp] theorem State.reg_rewind (s : State) (r : Reg) : s.rewind.reg r = s.reg r := rfl
@[simp] theorem State.reg_setFb (s : State) (fb : Framebuffer) (r : Reg) : (s.setFb fb).reg r = s.reg r := rfl
@[simp] theorem State.reg_setI (s : State) (w : Word) (r : Reg) : (s.setI w).reg r = s.reg r := rfl
@[simp] theorem State.reg_drawn (s : State) (r : Reg) : s.drawn.reg r = s.reg r := rfl

/-! ## Stack, timers, framebuffer, draws -/

@[simp] theorem State.pop_fields (s : State) :
    s.pop.mem = s.mem ∧ s.pop.v = s.v ∧ s.pop.i = s.i ∧ s.pop.pc = s.pc ∧ s.pop.sp = s.sp - 1 ∧
    s.pop.stack = s.stack ∧ s.pop.dt = s.dt ∧ s.pop.st = s.st ∧ s.pop.fb = s.fb ∧ s.pop.key = s.key ∧
    s.pop.halt = s.halt ∧ s.pop.draws = s.draws :=
  ⟨rfl, rfl, rfl, rfl, rfl, rfl, rfl, rfl, rfl, rfl, rfl, rfl⟩

@[simp] theorem State.push_fields (s : State) (w : Word) :
    (s.push w).mem = s.mem ∧ (s.push w).v = s.v ∧ (s.push w).i = s.i ∧ (s.push w).pc = s.pc ∧ (s.push w).sp = s.sp + 1 ∧
    (s.push w).stack = s.stack.setIfInBounds s.sp.val w ∧ (s.push w).dt = s.dt ∧ (s.push w).st = s.st ∧
    (s.push w).fb = s.fb ∧ (s.push w).key = s.key ∧ (s.push w).halt = s.halt ∧ (s.push w).draws = s.draws :=
  ⟨rfl, rfl, rfl, rfl, rfl, rfl, rfl, rfl, rfl, rfl, rfl, rfl⟩

/-- Below 16 the depth counts up, with no wrap of its type. -/
theorem depth_succ (p : Fin 17) (h : p ≠ 16) : (p + 1).val = p.val + 1 := by
  revert p; decide

/-- Above 0 the depth counts down, with no wrap of its type. -/
theorem depth_pred (p : Fin 17) (h : p ≠ 0) : (p - 1).val = p.val - 1 := by
  revert p; decide

@[simp] theorem State.tick_fields (s : State) :
    s.tick.mem = s.mem ∧ s.tick.v = s.v ∧ s.tick.i = s.i ∧ s.tick.pc = s.pc ∧ s.tick.sp = s.sp ∧
    s.tick.stack = s.stack ∧ s.tick.dt = tickTimer s.dt ∧ s.tick.st = tickTimer s.st ∧ s.tick.fb = s.fb ∧
    s.tick.key = s.key ∧ s.tick.halt = s.halt ∧ s.tick.draws = s.draws :=
  ⟨rfl, rfl, rfl, rfl, rfl, rfl, rfl, rfl, rfl, rfl, rfl, rfl⟩

/-- A timer goes down by one and stays at 0: natural subtraction (10_state.md R110). -/
@[simp] theorem tickTimer_toNat (t : Byte) : (tickTimer t).toNat = t.toNat - 1 := by
  unfold tickTimer; split <;> bv_omega

@[simp] theorem State.setDt_fields (s : State) (b : Byte) :
    (s.setDt b).mem = s.mem ∧ (s.setDt b).v = s.v ∧ (s.setDt b).i = s.i ∧ (s.setDt b).pc = s.pc ∧ (s.setDt b).sp = s.sp ∧
    (s.setDt b).stack = s.stack ∧ (s.setDt b).dt = b ∧ (s.setDt b).st = s.st ∧ (s.setDt b).fb = s.fb ∧
    (s.setDt b).key = s.key ∧ (s.setDt b).halt = s.halt ∧ (s.setDt b).draws = s.draws :=
  ⟨rfl, rfl, rfl, rfl, rfl, rfl, rfl, rfl, rfl, rfl, rfl, rfl⟩

@[simp] theorem State.setSt_fields (s : State) (b : Byte) :
    (s.setSt b).mem = s.mem ∧ (s.setSt b).v = s.v ∧ (s.setSt b).i = s.i ∧ (s.setSt b).pc = s.pc ∧ (s.setSt b).sp = s.sp ∧
    (s.setSt b).stack = s.stack ∧ (s.setSt b).dt = s.dt ∧ (s.setSt b).st = b ∧ (s.setSt b).fb = s.fb ∧
    (s.setSt b).key = s.key ∧ (s.setSt b).halt = s.halt ∧ (s.setSt b).draws = s.draws :=
  ⟨rfl, rfl, rfl, rfl, rfl, rfl, rfl, rfl, rfl, rfl, rfl, rfl⟩

@[simp] theorem State.setFb_fields (s : State) (fb : Framebuffer) :
    (s.setFb fb).mem = s.mem ∧ (s.setFb fb).v = s.v ∧ (s.setFb fb).i = s.i ∧ (s.setFb fb).pc = s.pc ∧
    (s.setFb fb).sp = s.sp ∧ (s.setFb fb).stack = s.stack ∧ (s.setFb fb).dt = s.dt ∧ (s.setFb fb).st = s.st ∧
    (s.setFb fb).fb = fb ∧ (s.setFb fb).key = s.key ∧ (s.setFb fb).halt = s.halt ∧ (s.setFb fb).draws = s.draws :=
  ⟨rfl, rfl, rfl, rfl, rfl, rfl, rfl, rfl, rfl, rfl, rfl, rfl⟩

@[simp] theorem State.drawn_fields (s : State) :
    s.drawn.mem = s.mem ∧ s.drawn.v = s.v ∧ s.drawn.i = s.i ∧ s.drawn.pc = s.pc ∧ s.drawn.sp = s.sp ∧
    s.drawn.stack = s.stack ∧ s.drawn.dt = s.dt ∧ s.drawn.st = s.st ∧ s.drawn.fb = s.fb ∧
    s.drawn.key = s.key ∧ s.drawn.halt = s.halt ∧ s.drawn.draws = s.draws + 1 :=
  ⟨rfl, rfl, rfl, rfl, rfl, rfl, rfl, rfl, rfl, rfl, rfl, rfl⟩

@[simp] theorem State.storeAtI_fields (s : State) (bs : List Byte) :
    (s.storeAtI bs).mem = s.mem.writeBytes s.i.toNat bs ∧ (s.storeAtI bs).v = s.v ∧ (s.storeAtI bs).i = s.i ∧
    (s.storeAtI bs).pc = s.pc ∧ (s.storeAtI bs).sp = s.sp ∧ (s.storeAtI bs).stack = s.stack ∧
    (s.storeAtI bs).dt = s.dt ∧ (s.storeAtI bs).st = s.st ∧ (s.storeAtI bs).fb = s.fb ∧ (s.storeAtI bs).key = s.key ∧
    (s.storeAtI bs).halt = s.halt ∧ (s.storeAtI bs).draws = s.draws :=
  ⟨rfl, rfl, rfl, rfl, rfl, rfl, rfl, rfl, rfl, rfl, rfl, rfl⟩

@[simp] theorem State.loadFromI_fields (s : State) (n : Nat) :
    (s.loadFromI n).mem = s.mem ∧ (s.loadFromI n).v = loadRegs s.mem s.i.toNat n s.v ∧ (s.loadFromI n).i = s.i ∧
    (s.loadFromI n).pc = s.pc ∧ (s.loadFromI n).sp = s.sp ∧ (s.loadFromI n).stack = s.stack ∧
    (s.loadFromI n).dt = s.dt ∧ (s.loadFromI n).st = s.st ∧ (s.loadFromI n).fb = s.fb ∧ (s.loadFromI n).key = s.key ∧
    (s.loadFromI n).halt = s.halt ∧ (s.loadFromI n).draws = s.draws :=
  ⟨rfl, rfl, rfl, rfl, rfl, rfl, rfl, rfl, rfl, rfl, rfl, rfl⟩

/-- The first n registers come from memory at `base` and up, the others stay (45_fx_family.md R618). -/
theorem getElem_loadRegs (m : Memory) (base n : Nat) (v : Vector Byte 16) (r : Nat) (h : r < 16) :
    (loadRegs m base n v)[r] = if r < n then m.read (base + r) else v[r] := by
  induction n with
  | zero => simp [loadRegs]
  | succ n ih =>
    simp only [loadRegs, Vector.getElem_setIfInBounds, ih]
    grind

@[simp] theorem State.reg_loadFromI (s : State) (n : Nat) (r : Reg) :
    (s.loadFromI n).reg r = if r.val < n then s.mem.read (s.i.toNat + r.val) else s.reg r :=
  getElem_loadRegs s.mem s.i.toNat n s.v r.val r.isLt

/-- The k-th of the first n registers is Vk. -/
theorem State.getElem_firstRegs (s : State) (n k : Nat) (h : k < (s.firstRegs n).length) :
    (s.firstRegs n)[k] = s.v[k]'(by simp [State.firstRegs] at h; omega) := by
  simp [State.firstRegs]

@[simp] theorem State.length_firstRegs (s : State) (n : Nat) : (s.firstRegs n).length = min n 16 := by
  simp [State.firstRegs]

/-! ## The fault latch -/

/-- Latching a fault changes HALT alone, and never leaves it empty (60_exceptions.md R701, R704). -/
@[simp] theorem State.latch_fields (s : State) (c : FaultCode) (a : Option Nat) :
    (s.latch c a).mem = s.mem ∧ (s.latch c a).v = s.v ∧ (s.latch c a).i = s.i ∧ (s.latch c a).pc = s.pc ∧
    (s.latch c a).sp = s.sp ∧ (s.latch c a).stack = s.stack ∧ (s.latch c a).dt = s.dt ∧ (s.latch c a).st = s.st ∧
    (s.latch c a).fb = s.fb ∧ (s.latch c a).key = s.key ∧ (s.latch c a).draws = s.draws ∧
    (s.latch c a).halt = some ⟨c, s.pc, s.fetched, a.map (BitVec.ofNat 17)⟩ :=
  ⟨rfl, rfl, rfl, rfl, rfl, rfl, rfl, rfl, rfl, rfl, rfl, rfl⟩

theorem State.endCycle_of_running (s : State) (h : s.halt = none) : s.endCycle = s.tick := by
  simp [State.endCycle, h]

theorem State.endCycle_of_halted (s : State) (h : s.halt ≠ none) : s.endCycle = s := by
  unfold State.endCycle; split <;> simp_all

/-- The end of a cycle moves the timers alone. -/
@[simp] theorem State.endCycle_fields (s : State) :
    s.endCycle.mem = s.mem ∧ s.endCycle.v = s.v ∧ s.endCycle.i = s.i ∧ s.endCycle.pc = s.pc ∧ s.endCycle.sp = s.sp ∧
    s.endCycle.stack = s.stack ∧ s.endCycle.fb = s.fb ∧ s.endCycle.key = s.key ∧ s.endCycle.halt = s.halt ∧
    s.endCycle.draws = s.draws := by
  unfold State.endCycle; split <;> simp

/-! ## The status port -/

/-- The status port shows each component of the state as it is (60_exceptions.md R733). -/
@[simp] theorem portStatus_fields (s : State) :
    (portStatus s).mem = s.mem ∧ (portStatus s).v = s.v ∧ (portStatus s).i = s.i ∧ (portStatus s).pc = s.pc ∧
    (portStatus s).sp = s.sp ∧ (portStatus s).stack = s.stack ∧ (portStatus s).dt = s.dt ∧ (portStatus s).st = s.st ∧
    (portStatus s).fb = s.fb ∧ (portStatus s).key = s.key ∧ (portStatus s).halt = s.halt ∧
    (portStatus s).haltCode = s.halt.map fun r => r.code.number :=
  ⟨rfl, rfl, rfl, rfl, rfl, rfl, rfl, rfl, rfl, rfl, rfl, rfl⟩

end Sys2Proof.Machine
end

