-- ==== Sys2Proof/Laws/Display.lean ====
section
/-! SUPPORT. The framebuffer: one toggled pixel, and what drawing a sprite does to every pixel and to the collision
(44_display.md R551, R552). -/

namespace Sys2Proof.Machine

/-- A toggle flips its own pixel and no other. -/
theorem Framebuffer.pixel_toggle (fb : Framebuffer) (r r' : Fin 32) (c c' : Fin 64) :
    (fb.toggle r c).pixel r' c' = if r' = r ∧ c' = c then !fb.pixel r c else fb.pixel r' c' := by
  simp only [Framebuffer.pixel, Framebuffer.toggle, Vector.getElem_set]
  by_cases hr : r = r'
  · subst hr
    by_cases hc : c = c'
    · subst hc; simp
    · have hc' : c.val ≠ c'.val := fun h => hc (Fin.ext h)
      simp [hc', Ne.symm hc]
  · have hr' : r.val ≠ r'.val := fun h => hr (Fin.ext h)
    simp [hr', Ne.symm hr]

@[simp] theorem Framebuffer.pixel_blank (r : Fin 32) (c : Fin 64) : Framebuffer.blank.pixel r c = false := by
  simp [Framebuffer.pixel, Framebuffer.blank]

/-- Two framebuffers with the same pixels are the same. -/
theorem Framebuffer.ext_pixel (a b : Framebuffer) (h : ∀ r c, a.pixel r c = b.pixel r c) : a = b :=
  Vector.ext fun r hr => Vector.ext fun c hc => h ⟨r, hr⟩ ⟨c, hc⟩

/-- The sprite as a list of bits, each with the cell it lands on, in drawing order (R551). -/
def spriteBits (m : Memory) (base n cx cy : Nat) : List (Bool × Fin 32 × Fin 64) :=
  (List.range n).flatMap fun k => (List.range 8).map fun j =>
    ((m.read (base + k)).getLsbD (7 - j), Fin.ofNat 32 (cy + k), Fin.ofNat 64 (cx + j))

theorem drawSprite_eq_foldl (m : Memory) (base n cx cy : Nat) (fb : Framebuffer) :
    drawSprite m base n cx cy fb =
      (spriteBits m base n cx cy).foldl (fun acc p => drawPixel acc p.1 p.2.1 p.2.2) (fb, false) := by
  simp only [drawSprite, spriteBits, List.foldl_flatMap, List.foldl_map]
  rfl

/-- Drawing bits on pairwise different cells flips exactly the cells of the bits that are 1, and hits exactly when one of
those cells was lit before. -/
theorem foldl_drawPixel (bits : List (Bool × Fin 32 × Fin 64)) (acc : Framebuffer × Bool)
    (hd : (bits.map Prod.snd).Nodup) :
    let out := bits.foldl (fun acc p => drawPixel acc p.1 p.2.1 p.2.2) acc
    (∀ r c, out.1.pixel r c = if (true, r, c) ∈ bits then !acc.1.pixel r c else acc.1.pixel r c) ∧
    (out.2 = true ↔ acc.2 = true ∨ ∃ r c, (true, r, c) ∈ bits ∧ acc.1.pixel r c = true) := by
  induction bits generalizing acc with
  | nil => simp
  | cons p bits ih =>
    obtain ⟨b, r0, c0⟩ := p
    simp only [List.map_cons, List.nodup_cons] at hd
    obtain ⟨hnot, hd⟩ := hd
    have hfree : ∀ b', (b', r0, c0) ∉ bits := fun b' hb => hnot (List.mem_map_of_mem (f := Prod.snd) hb)
    have := ih (drawPixel acc b r0 c0) hd
    simp only at this ⊢
    rw [List.foldl_cons]
    refine ⟨fun r c => ?_, ?_⟩
    · rw [this.1]
      cases b with
      | false => simp [drawPixel]
      | true =>
        simp only [drawPixel, if_true, Framebuffer.pixel_toggle, List.mem_cons, Prod.mk.injEq, true_and]
        by_cases h : r = r0 ∧ c = c0
        · obtain ⟨rfl, rfl⟩ := h; simp [hfree]
        · simp [h]
    · rw [this.2]
      cases b with
      | false => simp [drawPixel]
      | true =>
        simp only [drawPixel, if_true, Framebuffer.pixel_toggle, List.mem_cons, Prod.mk.injEq, true_and,
          Bool.or_eq_true]
        constructor
        · rintro ((h | h) | ⟨r, c, hm, hp⟩)
          · exact .inl h
          · exact .inr ⟨r0, c0, .inl ⟨rfl, rfl⟩, h⟩
          · have hne : ¬ (r = r0 ∧ c = c0) := by rintro ⟨rfl, rfl⟩; exact hfree _ hm
            rw [if_neg hne] at hp
            exact .inr ⟨r, c, .inr hm, hp⟩
        · rintro (h | ⟨r, c, ⟨rfl, rfl⟩ | hm, hp⟩)
          · exact .inl (.inl h)
          · exact .inl (.inr hp)
          · have hne : ¬ (r = r0 ∧ c = c0) := by rintro ⟨rfl, rfl⟩; exact hfree _ hm
            exact .inr ⟨r, c, hm, by rw [if_neg hne]; exact hp⟩

/-- Two pixels of one sprite never land on the same cell (R551: 15 < 32 and 8 < 64). -/
theorem nodup_spriteBits (m : Memory) (base n cx cy : Nat) (hn : n ≤ 32) :
    ((spriteBits m base n cx cy).map Prod.snd).Nodup := by
  simp only [spriteBits, List.map_flatMap, List.map_map, List.nodup_flatMap]
  refine ⟨fun k _ => List.Nodup.map_on ?_ List.nodup_range, ?_⟩
  · intro i hi j hj h
    simp only [List.mem_range] at hi hj
    simp only [Function.comp_apply, Prod.mk.injEq, Fin.ofNat, Fin.mk.injEq, true_and] at h
    omega
  · refine List.Pairwise.imp_of_mem ?_ List.nodup_range
    intro i j hi hj hij
    simp only [List.mem_range] at hi hj
    simp only [Function.onFun, List.disjoint_left, List.mem_map, Function.comp_apply]
    rintro _ ⟨a, -, rfl⟩ ⟨b, -, h⟩
    simp only [Prod.mk.injEq, Fin.ofNat, Fin.mk.injEq] at h
    omega

/-- A bit of the sprite lands on the cell (r, c) and is 1. -/
theorem mem_spriteBits (m : Memory) (base n cx cy : Nat) (r : Fin 32) (c : Fin 64) :
    (true, r, c) ∈ spriteBits m base n cx cy ↔
      ∃ k < n, ∃ j < 8, (cy + k) % 32 = r.val ∧ (cx + j) % 64 = c.val ∧ (m.read (base + k)).getLsbD (7 - j) = true := by
  simp only [spriteBits, List.mem_flatMap, List.mem_map, List.mem_range, Prod.mk.injEq, Fin.ext_iff, Fin.ofNat]
  grind

/-- What drawing a sprite does: it flips exactly the pixels a 1 bit lands on, and hits exactly when one was lit. -/
theorem drawSprite_spec (m : Memory) (base n cx cy : Nat) (fb : Framebuffer) (hn : n ≤ 32) :
    (∀ r c, (drawSprite m base n cx cy fb).1.pixel r c =
      if (true, r, c) ∈ spriteBits m base n cx cy then !fb.pixel r c else fb.pixel r c) ∧
    ((drawSprite m base n cx cy fb).2 = true ↔
      ∃ r c, (true, r, c) ∈ spriteBits m base n cx cy ∧ fb.pixel r c = true) := by
  have := foldl_drawPixel (spriteBits m base n cx cy) (fb, false) (nodup_spriteBits m base n cx cy hn)
  rw [drawSprite_eq_foldl]
  simpa using this

end Sys2Proof.Machine
end

