-- ==== Sys2Proof/Laws/Memory.lean ====
section
/-! SUPPORT. Memory: a read after a write, and the canonical form. -/

namespace Sys2Proof.Machine

/-! ## A read after a write -/

theorem Memory.read_erase_ne (m : Memory) (a c : Nat) (h : c ≠ a) : (m.erase a).read c = m.read c := by
  induction m with
  | nil => rfl
  | cons p m ih => grind [Memory.erase, Memory.read]

theorem Memory.read_erase_self (m : Memory) (a : Nat) : (m.erase a).read a = Memory.unlisted a := by
  induction m with
  | nil => rfl
  | cons p m ih => grind [Memory.erase, Memory.read]

theorem Memory.read_insert_ne (m : Memory) (a c : Nat) (v : Byte) (h : c ≠ a) : (m.insert a v).read c = m.read c := by
  induction m with
  | nil => grind [Memory.insert, Memory.read]
  | cons p m ih => grind [Memory.insert, Memory.read]

theorem Memory.mem_erase (m : Memory) (a : Nat) (p : Host.Cell) : p ∈ m.erase a ↔ p ∈ m ∧ p.1 ≠ a := by
  induction m with
  | nil => simp [Memory.erase]
  | cons q m ih => grind [Memory.erase]

theorem Memory.mem_insert (m : Memory) (a : Nat) (v : Byte) (p : Host.Cell) :
    p ∈ m.insert a v ↔ p = (a, v) ∨ p ∈ m := by
  induction m with
  | nil => simp [Memory.insert]
  | cons q m ih => grind [Memory.insert]

theorem Memory.read_insert_self (m : Memory) (a : Nat) (v : Byte) (h : ∀ p ∈ m, p.1 ≠ a) :
    (m.insert a v).read a = v := by
  induction m with
  | nil => simp [Memory.insert, Memory.read]
  | cons q m ih => grind [Memory.insert, Memory.read]

/-- A byte written is read back. -/
@[simp] theorem Memory.read_write_self (m : Memory) (a : Nat) (v : Byte) : (m.write a v).read a = v := by
  unfold Memory.write
  split
  · rw [Memory.read_erase_self]; simp_all
  · exact Memory.read_insert_self _ _ _ fun p hp => ((Memory.mem_erase m a p).1 hp).2

/-- A write leaves every other address alone. -/
theorem Memory.read_write_ne (m : Memory) (a c : Nat) (v : Byte) (h : c ≠ a) : (m.write a v).read c = m.read c := by
  unfold Memory.write
  split
  · exact Memory.read_erase_ne m a c h
  · rw [Memory.read_insert_ne _ _ _ _ h, Memory.read_erase_ne m a c h]

/-- Consecutive writes leave every address outside them alone. -/
theorem Memory.read_writeBytes_outside (m : Memory) (a c : Nat) (vs : List Byte)
    (h : c < a ∨ a + vs.length ≤ c) : (m.writeBytes a vs).read c = m.read c := by
  induction vs generalizing m a with
  | nil => rfl
  | cons v vs ih =>
    simp only [List.length_cons] at h
    rw [Memory.writeBytes, ih _ _ (by omega), Memory.read_write_ne _ _ _ _ (by omega)]

/-- Consecutive writes are read back, each at its address. -/
theorem Memory.read_writeBytes_inside (m : Memory) (a k : Nat) (vs : List Byte) (h : k < vs.length) :
    (m.writeBytes a vs).read (a + k) = vs[k] := by
  induction vs generalizing m a k with
  | nil => simp at h
  | cons v vs ih =>
    rw [Memory.writeBytes]
    cases k with
    | zero => rw [Memory.read_writeBytes_outside _ _ _ _ (by omega)]; simp
    | succ k =>
      rw [List.getElem_cons_succ, ← ih (m.write a v) (a + 1) k (by simpa using h)]
      congr 1; omega

/-! ## The canonical form -/

theorem Memory.wf_nil : Memory.wf [] := by simp [Memory.wf]

theorem Memory.pairwise_erase (m : Memory) (a : Nat) (h : m.Pairwise (fun p q => p.1 < q.1)) :
    (m.erase a).Pairwise (fun p q => p.1 < q.1) := by
  induction m with
  | nil => simp [Memory.erase]
  | cons p m ih =>
    obtain ⟨b, w⟩ := p
    rw [List.pairwise_cons] at h
    by_cases hb : b = a
    · simpa [Memory.erase, hb] using ih h.2
    · simp only [Memory.erase, hb, if_false, List.pairwise_cons]
      exact ⟨fun q hq => h.1 q ((Memory.mem_erase m a q).1 hq).1, ih h.2⟩

theorem Memory.pairwise_insert (m : Memory) (a : Nat) (v : Byte) (h : m.Pairwise (fun p q => p.1 < q.1))
    (ha : ∀ p ∈ m, p.1 ≠ a) : (m.insert a v).Pairwise (fun p q => p.1 < q.1) := by
  induction m with
  | nil => simp [Memory.insert]
  | cons p m ih =>
    obtain ⟨b, w⟩ := p
    rw [List.pairwise_cons] at h
    have hb : b ≠ a := ha (b, w) (by simp)
    have hm : ∀ q ∈ m, q.1 ≠ a := fun q hq => ha q (by simp [hq])
    by_cases hab : a < b
    · simp only [Memory.insert, hab, if_true, List.pairwise_cons]
      exact ⟨fun q hq => by rcases List.mem_cons.1 hq with rfl | hq <;> [exact hab; exact hab.trans (h.1 q hq)], h⟩
    · simp only [Memory.insert, hab, if_false, List.pairwise_cons]
      refine ⟨fun q hq => ?_, ih h.2 hm⟩
      rcases (Memory.mem_insert m a v q).1 hq with rfl | hq
      · show b < a; omega
      · exact h.1 q hq

/-- A write inside memory keeps the canonical form. -/
theorem Memory.wf_write (m : Memory) (a : Nat) (v : Byte) (ha : a < 4096) (h : m.wf) : (m.write a v).wf := by
  have he : ∀ p ∈ m.erase a, p.1 ≠ a := fun p hp => ((Memory.mem_erase m a p).1 hp).2
  have hp := Memory.pairwise_erase m a h.1
  unfold Memory.write
  split
  · exact ⟨hp, fun p hp => h.2 p ((Memory.mem_erase m a p).1 hp).1⟩
  · refine ⟨Memory.pairwise_insert _ a v hp he, fun p hp => ?_⟩
    rcases (Memory.mem_insert _ a v p).1 hp with rfl | hp
    · exact ⟨ha, ‹_›⟩
    · exact h.2 p ((Memory.mem_erase m a p).1 hp).1

/-- Consecutive writes inside memory keep the canonical form. -/
theorem Memory.wf_writeBytes (m : Memory) (a : Nat) (vs : List Byte) (ha : a + vs.length ≤ 4096) (h : m.wf) :
    (m.writeBytes a vs).wf := by
  induction vs generalizing m a with
  | nil => exact h
  | cons v vs ih =>
    simp only [List.length_cons] at ha
    exact ih _ _ (by omega) (Memory.wf_write m a v (by omega) h)

end Sys2Proof.Machine
end

