-- ==== Sys2Proof/Laws/Ops.lean ====
section
/-! SUPPORT. Everything the shared operations can do: the address checks, the fetch, taking a fault, and the step. -/

namespace Sys2Proof.Machine

/-! ## Address checks -/

theorem firstBad_eq_none (bad : Nat → Bool) (base n : Nat) :
    firstBad bad base n = none ↔ ∀ k < n, bad (base + k) = false := by
  simp [firstBad]

/-- The lowest bad address: it is among the n, it is bad, and no lower one of them is. -/
theorem firstBad_eq_some (bad : Nat → Bool) (base n a : Nat) :
    firstBad bad base n = some a ↔
      base ≤ a ∧ a < base + n ∧ bad a = true ∧ ∀ b, base ≤ b → b < a → bad b = false := by
  induction n with
  | zero => simp [firstBad]; omega
  | succ n ih =>
    have hs : firstBad bad base (n + 1) = (firstBad bad base n).or (if bad (base + n) then some (base + n) else none) := by
      simp only [firstBad, List.range_succ, List.map_append, List.map_cons, List.map_nil, List.find?_append]
      congr 1
      cases h : bad (base + n) <;> simp [h]
    rw [hs]
    cases hf : firstBad bad base n with
    | some b =>
      rw [hf] at ih
      simp only [Option.some_or, ih]
      refine ⟨fun h => ⟨h.1, by omega, h.2.2⟩, fun h => ⟨h.1, ?_, h.2.2⟩⟩
      rcases Nat.lt_or_ge a (base + n) with hlt | hge
      · exact hlt
      · have hb := (ih.2 · )
        have : a = base + n := by omega
        have hbad : ∀ k < n, bad (base + k) = false := fun k hk => h.2.2.2 _ (by omega) (by omega)
        rw [(firstBad_eq_none bad base n).2 hbad] at hf
        cases hf
    | none =>
      have hn := (firstBad_eq_none bad base n).1 hf
      simp only [Option.none_or]
      split
      · rename_i hbad
        simp only [Option.some.injEq]
        constructor
        · rintro rfl
          refine ⟨by omega, by omega, hbad, fun b h1 h2 => ?_⟩
          have := hn (b - base) (by omega)
          rwa [show base + (b - base) = b by omega] at this
        · rintro ⟨h1, h2, h3, -⟩
          rcases Nat.lt_or_ge a (base + n) with hlt | hge
          · have := hn (a - base) (by omega)
            rw [show base + (a - base) = a by omega, h3] at this
            cases this
          · omega
      · rename_i hbad
        simp only [reduceCtorEq, false_iff]
        rintro ⟨h1, h2, h3, -⟩
        rcases Nat.lt_or_ge a (base + n) with hlt | hge
        · have := hn (a - base) (by omega)
          rw [show base + (a - base) = a by omega, h3] at this
          cases this
        · rw [show a = base + n by omega] at h3; contradiction

@[simp] theorem outOfRange_eq_true (a : Nat) : outOfRange a = true ↔ 4096 ≤ a := by simp [outOfRange]
@[simp] theorem outOfRange_eq_false (a : Nat) : outOfRange a = false ↔ a < 4096 := by simp [outOfRange]
@[simp] theorem inFont_eq_true (a : Nat) : inFont a = true ↔ 0x050 ≤ a ∧ a ≤ 0x09F := by
  simp only [inFont, Config.fontBase, Config.fontSize, decide_eq_true_eq]; omega
@[simp] theorem inFont_eq_false (a : Nat) : inFont a = false ↔ ¬ (0x050 ≤ a ∧ a ≤ 0x09F) := by
  rw [← inFont_eq_true, Bool.not_eq_true]

/-- Reading n bytes faults exactly when the last one is outside memory, and names the lowest such address (20_memory.md
R203). -/
theorem readFault_eq (base n : Nat) :
    readFault base n = if 0 < n ∧ 4096 < base + n then some (.memoryOutOfRange, max base 4096) else none := by
  unfold readFault
  split
  · rw [(firstBad_eq_some outOfRange base n (max base 4096)).2 ⟨by omega, by omega, by simp, by simp; omega⟩]; rfl
  · rw [(firstBad_eq_none outOfRange base n).2 (by simp; omega)]; rfl

theorem readFault_eq_none (base n : Nat) : readFault base n = none ↔ (n = 0 ∨ base + n ≤ 4096) := by
  rw [readFault_eq]; split <;> simp <;> omega

/-- Writing n bytes does not fault exactly when they are all in memory and none is in the font table (20_memory.md R203,
R204). -/
theorem writeFault_eq_none (base n : Nat) :
    writeFault base n = none ↔ (n = 0 ∨ base + n ≤ 4096) ∧ ∀ k < n, ¬ (0x050 ≤ base + k ∧ base + k ≤ 0x09F) := by
  unfold writeFault
  rw [Option.or_eq_none_iff, readFault_eq_none, Option.map_eq_none_iff, firstBad_eq_none]
  simp only [inFont_eq_false]

/-- The fault of a write: the range first, then the lowest font address (60_exceptions.md R720). -/
theorem writeFault_eq_some (base n a : Nat) (c : FaultCode) :
    writeFault base n = some (c, a) ↔
      (0 < n ∧ 4096 < base + n ∧ c = .memoryOutOfRange ∧ a = max base 4096) ∨
      ((n = 0 ∨ base + n ≤ 4096) ∧ c = .protectedWrite ∧ firstBad inFont base n = some a) := by
  unfold writeFault
  rw [readFault_eq]
  split
  · rename_i h; simp; grind
  · rename_i h
    rw [Option.none_or, Option.map_eq_some_iff]
    grind

/-! ## The fetch -/

/-- A fetch inside memory reads the two bytes, big-endian (30_encoding.md R331). -/
theorem State.fetch_ok (s : State) (h : s.pc.toNat + 1 < 4096) :
    s.fetch = .ok (s.mem.read s.pc.toNat ++ s.mem.read (s.pc.toNat + 1)) := by
  unfold State.fetch
  rw [(firstBad_eq_none outOfRange s.pc.toNat 2).2 (by simp; omega)]; rfl

/-- A fetch that touches 0x1000 or above fails with the lowest such address (30_encoding.md R331). -/
theorem State.fetch_error (s : State) (h : 4096 ≤ s.pc.toNat + 1) : s.fetch = .error (max s.pc.toNat 4096) := by
  unfold State.fetch
  rw [(firstBad_eq_some outOfRange s.pc.toNat 2 (max s.pc.toNat 4096)).2
    ⟨by omega, by omega, by simp, by simp; omega⟩]

theorem State.fetched_eq (s : State) :
    s.fetched = if 4096 ≤ s.pc.toNat + 1 then none
      else some (s.mem.read s.pc.toNat ++ s.mem.read (s.pc.toNat + 1)) := by
  unfold State.fetched
  split
  · rename_i op h
    by_cases hp : 4096 ≤ s.pc.toNat + 1
    · rw [State.fetch_error s hp] at h; cases h
    · rw [State.fetch_ok s (by omega)] at h; cases h; simp [hp]
  · rename_i a h
    by_cases hp : 4096 ≤ s.pc.toNat + 1
    · simp [hp]
    · rw [State.fetch_ok s (by omega)] at h; cases h

/-! ## Taking a fault -/

/-- A fault answers the state at the start of the cycle with HALT set. -/
theorem raise_eq (s : State) (c : FaultCode) (a : Option Nat) :
    raise s c a = .next { s with
      pc := s.pc - 2#16
      halt := some ⟨c, s.pc - 2#16, s.rewind.fetched, a.map (BitVec.ofNat 17)⟩ } := rfl

/-- A fault in the execute phase of a cycle, seen from the state at its start. -/
@[simp] theorem raise_advance (s : State) (c : FaultCode) (a : Option Nat) :
    raise s.advance c a = .next (s.latch c a) := by simp [raise]

/-- An access either takes the fault its check names or has its effect. -/
theorem unlessFault_cases {f : Option (FaultCode × Nat)} {s s' t : State} (h : unlessFault f s s' = .next t) :
    (f = none ∧ t = s') ∨ ∃ c a, f = some (c, a) ∧ raise s c (some a) = .next t := by
  unfold unlessFault at h
  split at h
  · rename_i c a; exact .inr ⟨c, a, rfl, h⟩
  · exact .inl ⟨rfl, by cases h; rfl⟩

@[simp] theorem unlessFault_none (s s' : State) : unlessFault none s s' = .next s' := rfl
@[simp] theorem unlessFault_some (c : FaultCode) (a : Nat) (s s' : State) :
    unlessFault (some (c, a)) s s' = raise s c (some a) := rfl

/-! ## The keypad and the key index -/

theorem keyIndex_of_lt (v : Byte) (k : Fin 16) (h : v.toNat = k.val) : keyIndex v = some k := by
  unfold keyIndex
  have : v.toNat < 16 := h ▸ k.isLt
  simp [h]

theorem keyIndex_of_gt (v : Byte) (h : 15 < v.toNat) : keyIndex v = none := by
  unfold keyIndex
  split
  · omega
  · rfl

/-- The lowest pressed key, if the key k is pressed and no lower one is (45_fx_family.md R611). -/
theorem State.lowestKey_eq_some (s : State) (k : Fin 16) (hk : s.key[k.val] = true)
    (hlow : ∀ j : Fin 16, j < k → s.key[j.val] = false) : s.lowestKey = some k.val := by
  unfold State.lowestKey
  rw [List.findIdx?_eq_some_iff_getElem]
  refine ⟨by simp, by simpa using hk, fun j hj => ?_⟩
  have := hlow ⟨j, by omega⟩ (by simpa [Fin.lt_def] using hj)
  simpa using this

theorem State.lowestKey_eq_none (s : State) (h : ∀ k : Fin 16, s.key[k.val] = false) : s.lowestKey = none := by
  unfold State.lowestKey
  rw [List.findIdx?_eq_none_iff]
  intro b hb
  obtain ⟨j, hj, rfl⟩ := List.getElem_of_mem hb
  have := h ⟨j, by simpa using hj⟩
  simpa using this

/-! ## The step -/

/-- What a step can do: stay (halted), latch a fetch fault, latch an unknown opcode, or execute and end the cycle. -/
theorem step_cases {s t : State} (h : step s = .next t) :
    (s.halt ≠ none ∧ t = s) ∨
    (s.halt = none ∧ 4096 ≤ s.pc.toNat + 1 ∧ t = s.latch .memoryOutOfRange (some (max s.pc.toNat 4096))) ∨
    (s.halt = none ∧ s.pc.toNat + 1 < 4096 ∧ ∃ op e,
      s.fetch = .ok op ∧ decodeWord op = .error e ∧ t = s.latch .unknownOpcode none) ∨
    (s.halt = none ∧ s.pc.toNat + 1 < 4096 ∧ ∃ op i u,
      s.fetch = .ok op ∧ decodeWord op = .ok i ∧ exec i s.advance = .next u ∧ t = u.endCycle) := by
  unfold step at h
  split at h
  · rename_i r hr; exact .inl ⟨by simp [hr], by cases h; rfl⟩
  · rename_i hr
    by_cases hp : 4096 ≤ s.pc.toNat + 1
    · rw [State.fetch_error s hp] at h
      exact .inr (.inl ⟨hr, hp, by cases h; rfl⟩)
    · have hp' : s.pc.toNat + 1 < 4096 := by omega
      rw [State.fetch_ok s hp'] at h
      simp only at h
      split at h
      · rename_i e he
        exact .inr (.inr (.inl ⟨hr, hp', _, e, State.fetch_ok s hp', he, by cases h; rfl⟩))
      · rename_i i hi
        cases hx : exec i s.advance with
        | next u =>
          rw [hx] at h
          exact .inr (.inr (.inr ⟨hr, hp', _, i, u, State.fetch_ok s hp', hi, hx, by cases h; rfl⟩))
        | fault f => rw [hx] at h; cases h
        | refused r => rw [hx] at h; cases h

end Sys2Proof.Machine
end

