-- ==== Sys2Proof/Laws/PerInstr.lean ====
section
/-! SUPPORT. Per-instruction family OperandsFit: every instruction is well formed, because its operand types carry the
bounds of its fields (10_state.md R103). One lemma per constructor. -/

namespace Sys2Proof.Laws.OperandsFit

/-- The instruction's operands fit their fields (30_encoding.md R301). -/
def Statement (i : Instr) : Prop := i.wellFormed = true

theorem regNumber_fits (x : Fin 16) : WellFormed.regNumber x.val = true := decide_eq_true x.isLt
theorem rowCount_fits (n : Fin 16) : WellFormed.rowCount n.val = true := decide_eq_true n.isLt
theorem immByte_fits (kk : Byte) : WellFormed.immByte kk.toNat = true := decide_eq_true kk.isLt
theorem imm12_fits (nnn : Imm12) : WellFormed.imm12 nnn.toNat = true := decide_eq_true nnn.isLt

theorem cls : Statement (.cls) :=
  rfl
theorem ret : Statement (.ret) :=
  rfl
theorem jp (nnn : Imm12) : Statement (.jp nnn) :=
  imm12_fits nnn
theorem call (nnn : Imm12) : Statement (.call nnn) :=
  imm12_fits nnn
theorem seVkk (x : Reg) (kk : Byte) : Statement (.seVkk x kk) :=
  Bool.and_eq_true_iff.2 ⟨regNumber_fits x, immByte_fits kk⟩
theorem sneVkk (x : Reg) (kk : Byte) : Statement (.sneVkk x kk) :=
  Bool.and_eq_true_iff.2 ⟨regNumber_fits x, immByte_fits kk⟩
theorem seVV (x y : Reg) : Statement (.seVV x y) :=
  Bool.and_eq_true_iff.2 ⟨regNumber_fits x, regNumber_fits y⟩
theorem ldVkk (x : Reg) (kk : Byte) : Statement (.ldVkk x kk) :=
  Bool.and_eq_true_iff.2 ⟨regNumber_fits x, immByte_fits kk⟩
theorem addVkk (x : Reg) (kk : Byte) : Statement (.addVkk x kk) :=
  Bool.and_eq_true_iff.2 ⟨regNumber_fits x, immByte_fits kk⟩
theorem ldVV (x y : Reg) : Statement (.ldVV x y) :=
  Bool.and_eq_true_iff.2 ⟨regNumber_fits x, regNumber_fits y⟩
theorem or (x y : Reg) : Statement (.or x y) :=
  Bool.and_eq_true_iff.2 ⟨regNumber_fits x, regNumber_fits y⟩
theorem and (x y : Reg) : Statement (.and x y) :=
  Bool.and_eq_true_iff.2 ⟨regNumber_fits x, regNumber_fits y⟩
theorem xor (x y : Reg) : Statement (.xor x y) :=
  Bool.and_eq_true_iff.2 ⟨regNumber_fits x, regNumber_fits y⟩
theorem addVV (x y : Reg) : Statement (.addVV x y) :=
  Bool.and_eq_true_iff.2 ⟨regNumber_fits x, regNumber_fits y⟩
theorem sub (x y : Reg) : Statement (.sub x y) :=
  Bool.and_eq_true_iff.2 ⟨regNumber_fits x, regNumber_fits y⟩
theorem shr (x y : Reg) : Statement (.shr x y) :=
  Bool.and_eq_true_iff.2 ⟨regNumber_fits x, regNumber_fits y⟩
theorem subn (x y : Reg) : Statement (.subn x y) :=
  Bool.and_eq_true_iff.2 ⟨regNumber_fits x, regNumber_fits y⟩
theorem shl (x y : Reg) : Statement (.shl x y) :=
  Bool.and_eq_true_iff.2 ⟨regNumber_fits x, regNumber_fits y⟩
theorem sneVV (x y : Reg) : Statement (.sneVV x y) :=
  Bool.and_eq_true_iff.2 ⟨regNumber_fits x, regNumber_fits y⟩
theorem ldI (nnn : Imm12) : Statement (.ldI nnn) :=
  imm12_fits nnn
theorem jpV0 (nnn : Imm12) : Statement (.jpV0 nnn) :=
  imm12_fits nnn
theorem rnd (x : Reg) (kk : Byte) : Statement (.rnd x kk) :=
  Bool.and_eq_true_iff.2 ⟨regNumber_fits x, immByte_fits kk⟩
theorem drw (x y : Reg) (n : Fin 16) : Statement (.drw x y n) :=
  Bool.and_eq_true_iff.2 ⟨Bool.and_eq_true_iff.2 ⟨regNumber_fits x, regNumber_fits y⟩, rowCount_fits n⟩
theorem skp (x : Reg) : Statement (.skp x) :=
  regNumber_fits x
theorem sknp (x : Reg) : Statement (.sknp x) :=
  regNumber_fits x
theorem ldVDt (x : Reg) : Statement (.ldVDt x) :=
  regNumber_fits x
theorem ldVKey (x : Reg) : Statement (.ldVKey x) :=
  regNumber_fits x
theorem ldDtV (x : Reg) : Statement (.ldDtV x) :=
  regNumber_fits x
theorem ldStV (x : Reg) : Statement (.ldStV x) :=
  regNumber_fits x
theorem addIV (x : Reg) : Statement (.addIV x) :=
  regNumber_fits x
theorem ldFV (x : Reg) : Statement (.ldFV x) :=
  regNumber_fits x
theorem ldBV (x : Reg) : Statement (.ldBV x) :=
  regNumber_fits x
theorem ldMiV (x : Reg) : Statement (.ldMiV x) :=
  regNumber_fits x
theorem ldVMi (x : Reg) : Statement (.ldVMi x) :=
  regNumber_fits x

end Sys2Proof.Laws.OperandsFit
end

