-- ==== Sys2Proof/Tests/Slice0.lean ====
section
/-! SUPPORT. The model's own tests. The expected results come from 95_test_vectors.md (the name of the vector stands in
each docstring) or are worked out by hand from the rule named. The `witness_…` theorems show, for every statement that
has hypotheses, concrete values that meet them together, at the edges of their ranges. -/

namespace Sys2Proof.Tests

open Sys2Proof.Machine

/-- The next state, where there is one. -/
def nextOf : Host.Outcome State Fault Refusal → Option State
  | .next t => some t
  | .fault _ => none
  | .refused _ => none

/-- One step that runs the word, from the given state. -/
def after (w : Nat) (s : State) : Option State := nextOf (step (s.withFetchWord 16 w))

/-- The reset state with these registers and this I. -/
def startWith (regs : List (Reg × Byte)) (i : Word) : State :=
  regs.foldl (fun s p => s.setReg p.1 p.2) (State.reset.setI i)

/-- The same with bytes in memory from 0x300 up. -/
def withData (s : State) (bs : List Byte) : State := { s with mem := s.mem.writeBytes 0x300 bs }

/-- The same with these keys pressed. -/
def withKeys (s : State) (ks : List (Fin 16)) : State :=
  { s with key := ks.foldl (fun v k => v.set k.val true) s.key }

/-- The word stored at PC, without any other change: PC is fetchable in these tests. -/
def atPc (pc w : Nat) (s : State) : State :=
  { s with mem := s.mem.writeBytes pc [BitVec.ofNat 8 (w / 256), BitVec.ofNat 8 (w % 256)], pc := BitVec.ofNat 16 pc }

/-! ## Well-formedness: an ill-formed operand is refused -/

theorem test_wf_refuses_register_16 : WellFormed.regNumber 16 = false ∧ WellFormed.regNumber 15 = true := by decide
theorem test_wf_refuses_immediate_256 : WellFormed.immByte 256 = false ∧ WellFormed.immByte 255 = true := by decide
theorem test_wf_refuses_address_4096 : WellFormed.imm12 4096 = false ∧ WellFormed.imm12 4095 = true := by decide
theorem test_wf_refuses_row_count_16 : WellFormed.rowCount 16 = false ∧ WellFormed.rowCount 15 = true := by decide

/-! ## Decoding: a word of every instruction, from its format in 30_encoding.md section 4 and 95_test_vectors.md -/

theorem test_decode_families_0_to_3 :
    decodeTableWord 16 0x00E0 = some .cls ∧ decodeTableWord 16 0x00EE = some .ret ∧
    decodeTableWord 16 0x1ABC = some (.jp 0xABC) ∧ decodeTableWord 16 0x2ABC = some (.call 0xABC) ∧
    decodeTableWord 16 0x3A5C = some (.seVkk 0xA 0x5C) := by decide
theorem test_decode_families_4_to_7 :
    decodeTableWord 16 0x4A5C = some (.sneVkk 0xA 0x5C) ∧ decodeTableWord 16 0x5AB0 = some (.seVV 0xA 0xB) ∧
    decodeTableWord 16 0x6A5C = some (.ldVkk 0xA 0x5C) ∧ decodeTableWord 16 0x7A5C = some (.addVkk 0xA 0x5C) := by
  decide
theorem test_decode_family_8 :
    decodeTableWord 16 0x8AB0 = some (.ldVV 0xA 0xB) ∧ decodeTableWord 16 0x8AB1 = some (.or 0xA 0xB) ∧
    decodeTableWord 16 0x8AB2 = some (.and 0xA 0xB) ∧ decodeTableWord 16 0x8AB3 = some (.xor 0xA 0xB) ∧
    decodeTableWord 16 0x8AB4 = some (.addVV 0xA 0xB) ∧ decodeTableWord 16 0x8AB5 = some (.sub 0xA 0xB) ∧
    decodeTableWord 16 0x8AB6 = some (.shr 0xA 0xB) ∧ decodeTableWord 16 0x8AB7 = some (.subn 0xA 0xB) ∧
    decodeTableWord 16 0x8ABE = some (.shl 0xA 0xB) := by decide
theorem test_decode_families_9_to_D :
    decodeTableWord 16 0x9AB0 = some (.sneVV 0xA 0xB) ∧ decodeTableWord 16 0xAABC = some (.ldI 0xABC) ∧
    decodeTableWord 16 0xBABC = some (.jpV0 0xABC) ∧ decodeTableWord 16 0xCA5C = some (.rnd 0xA 0x5C) ∧
    decodeTableWord 16 0xDAB7 = some (.drw 0xA 0xB 7) := by decide
theorem test_decode_families_E_and_F :
    decodeTableWord 16 0xEA9E = some (.skp 0xA) ∧ decodeTableWord 16 0xEAA1 = some (.sknp 0xA) ∧
    decodeTableWord 16 0xFA07 = some (.ldVDt 0xA) ∧ decodeTableWord 16 0xFA0A = some (.ldVKey 0xA) ∧
    decodeTableWord 16 0xFA15 = some (.ldDtV 0xA) ∧ decodeTableWord 16 0xFA18 = some (.ldStV 0xA) ∧
    decodeTableWord 16 0xFA1E = some (.addIV 0xA) ∧ decodeTableWord 16 0xFA29 = some (.ldFV 0xA) ∧
    decodeTableWord 16 0xFA33 = some (.ldBV 0xA) ∧ decodeTableWord 16 0xFA55 = some (.ldMiV 0xA) ∧
    decodeTableWord 16 0xFA65 = some (.ldVMi 0xA) := by decide
/-- E3, E5, E8, E9, E12, E13: the ignored bits. -/
theorem test_decode_ignored_bits :
    decodeWord 0x0FF0 = .ok .cls ∧ decodeWord 0x0ABE = .ok .ret ∧ decodeWord 0x5121 = .ok (.seVV 1 2) ∧
    decodeWord 0x912F = .ok (.sneVV 1 2) ∧ decodeWord 0xE30E = .ok (.skp 3) ∧ decodeWord 0xE3F1 = .ok (.sknp 3) := by
  decide
/-- E6, E7, E11, E14, E16, E17, E18: unknown words, refused by name. -/
theorem test_decode_unknown :
    decodeWord 0x0123 = .error .unknownOpcode ∧ decodeWord 0x00FF = .error .unknownOpcode ∧
    decodeWord 0x8AB8 = .error .unknownOpcode ∧ decodeWord 0x8ABD = .error .unknownOpcode ∧
    decodeWord 0x8ABF = .error .unknownOpcode ∧ decodeWord 0xE39F = .error .unknownOpcode ∧
    decodeWord 0xF31A = .error .unknownOpcode ∧ decodeWord 0xF375 = .error .unknownOpcode ∧
    decodeWord 0xFFFF = .error .unknownOpcode := by decide
/-- Bytes: big-endian (20_memory.md R206), the rest is handed on, one byte is not enough. -/
theorem test_decode_bytes :
    decodeBytes [0x6A, 0x2B, 0x12] = .ok (.ldVkk 0xA 0x2B, [0x12]) ∧ decodeBytes [0x6A] = .error .truncated ∧
    decodeBytes [] = .error .truncated := by decide

/-! ## Control flow -/

/-- B20. -/
theorem test_ret :
    (nextOf (step (atPc 0x300 0x00EE { State.reset with sp := 1, stack := State.reset.stack.set 0 0x0204 }))).map
      (fun t => (t.sp, t.pc, t.stack[0], t.halt)) = some (0, 0x0204, 0x0204, none) := by decide
/-- B22. -/
theorem test_ret_underflow : (after 0x00EE State.reset).map (fun t => (t.halt, t.pc)) =
    some (some ⟨.stackUnderflow, 0x200, some 0x00EE, none⟩, 0x200) := by decide
/-- B16. -/
theorem test_jp : (after 0x1234 State.reset).map (·.pc) = some 0x0234 := by decide
/-- B18. -/
theorem test_call : (after 0x2300 State.reset).map (fun t => (t.stack[0], t.sp, t.pc)) = some (0x0202, 1, 0x0300) := by
  decide
/-- B19. -/
theorem test_call_overflow :
    (after 0x2300 { State.reset with sp := 16, stack := Vector.replicate 16 0x0202 }).map (fun t => (t.halt, t.sp, t.pc)) =
    some (some ⟨.stackOverflow, 0x200, some 0x2300, none⟩, 16, 0x0200) := by decide
/-- B1, B2. -/
theorem test_se_vk : (after 0x3342 (startWith [(3, 0x42)] 0)).map (·.pc) = some 0x0204 ∧
    (after 0x3342 (startWith [(3, 0x41)] 0)).map (·.pc) = some 0x0202 := by decide
/-- B4, B5. -/
theorem test_sne_vk : (after 0x4342 (startWith [(3, 0x41)] 0)).map (·.pc) = some 0x0204 ∧
    (after 0x4342 (startWith [(3, 0x42)] 0)).map (·.pc) = some 0x0202 := by decide
/-- B6, B7. -/
theorem test_se_vv : (after 0x5120 (startWith [(1, 7), (2, 7)] 0)).map (·.pc) = some 0x0204 ∧
    (after 0x5121 (startWith [(1, 7), (2, 8)] 0)).map (·.pc) = some 0x0202 := by decide
/-- B9, B10. -/
theorem test_sne_vv : (after 0x9120 (startWith [(1, 7), (2, 8)] 0)).map (·.pc) = some 0x0204 ∧
    (after 0x9110 (startWith [(1, 7)] 0)).map (·.pc) = some 0x0202 := by decide
/-- B11, B12. -/
theorem test_skp : (after 0xE59E (withKeys (startWith [(5, 0xA)] 0) [0xA])).map (·.pc) = some 0x0204 ∧
    (after 0xE59E (startWith [(5, 0xA)] 0)).map (·.pc) = some 0x0202 := by decide
/-- B15. -/
theorem test_skp_out_of_range : (after 0xE59E (startWith [(5, 0x10)] 0)).map (fun t => (t.halt, t.pc)) =
    some (some ⟨.keyIndexOutOfRange, 0x200, some 0xE59E, some 0x10⟩, 0x0200) := by decide
/-- B13, B14. -/
theorem test_sknp : (after 0xE5A1 (startWith [(5, 0xA)] 0)).map (·.pc) = some 0x0204 ∧
    (after 0xE501 (withKeys (startWith [(5, 0xA)] 0) [0xA])).map (·.pc) = some 0x0202 := by decide
/-- B25. -/
theorem test_jp_v0 : (after 0xB300 (startWith [(0, 5), (3, 0x40)] 0)).map (·.pc) = some 0x0305 := by decide
/-- B24. -/
theorem test_jp_v0_past_memory : (after 0xBFFF (startWith [(0, 0xFF)] 0)).map (fun t => (t.pc, t.halt)) =
    some (0x10FE, none) := by decide

/-! ## Arithmetic, logic, shifts -/

/-- A1, A3. -/
theorem test_add_vk : (after 0x7220 (startWith [(2, 0xF0)] 0)).map (fun t => (t.reg 2, t.reg 15)) = some (0x10, 0) ∧
    (after 0x7FFF (startWith [(15, 1)] 0)).map (·.reg 15) = some 0 := by decide
/-- A4. -/
theorem test_or : (after 0x8121 (startWith [(1, 0xC), (2, 0xA), (15, 1)] 0)).map (fun t => (t.reg 1, t.reg 15)) =
    some (0xE, 1) := by decide
/-- A5. -/
theorem test_and : (after 0x8122 (startWith [(1, 0xC), (2, 0xA)] 0)).map (·.reg 1) = some 0x8 := by decide
/-- A6. -/
theorem test_xor : (after 0x8123 (startWith [(1, 0xC), (2, 0xA)] 0)).map (·.reg 1) = some 0x6 := by decide
/-- S1, A9. -/
theorem test_add_vv :
    (after 0x8124 (startWith [(1, 0xFA), (2, 0x0A)] 0)).map (fun t => (t.reg 1, t.reg 15)) = some (4, 1) ∧
    (after 0x8124 (startWith [(1, 0x7F), (2, 0x80)] 0)).map (fun t => (t.reg 1, t.reg 15)) = some (0xFF, 0) := by decide
/-- A11, A12: the flag wins, and VF as an operand is the old VF. -/
theorem test_add_vv_with_vf : (after 0x8F14 (startWith [(15, 0xFF), (1, 1)] 0)).map (·.reg 15) = some 1 ∧
    (after 0x81F4 (startWith [(15, 1), (1, 2)] 0)).map (fun t => (t.reg 1, t.reg 15)) = some (3, 0) := by decide
/-- S3, A13. -/
theorem test_sub :
    (after 0x8125 (startWith [(1, 5), (2, 0xA)] 0)).map (fun t => (t.reg 1, t.reg 15)) = some (0xFB, 0) ∧
    (after 0x8125 (startWith [(1, 7), (2, 7)] 0)).map (fun t => (t.reg 1, t.reg 15)) = some (0, 1) := by decide
/-- A15. -/
theorem test_sub_with_vf : (after 0x8F15 (startWith [(15, 3), (1, 5)] 0)).map (·.reg 15) = some 0 := by decide
/-- A19, A20. -/
theorem test_shr :
    (after 0x8126 (startWith [(1, 1), (2, 0xFF)] 0)).map (fun t => (t.reg 1, t.reg 15)) = some (0, 1) ∧
    (after 0x8106 (startWith [(1, 0x80)] 0)).map (fun t => (t.reg 1, t.reg 15)) = some (0x40, 0) := by decide
/-- A21. -/
theorem test_shr_with_vf : (after 0x8F06 (startWith [(15, 2)] 0)).map (·.reg 15) = some 0 := by decide
/-- A16, A18. -/
theorem test_subn :
    (after 0x8127 (startWith [(1, 0xA), (2, 5)] 0)).map (fun t => (t.reg 1, t.reg 15)) = some (0xFB, 0) ∧
    (after 0x8117 (startWith [(1, 9)] 0)).map (fun t => (t.reg 1, t.reg 15)) = some (0, 1) := by decide
/-- A22, A23. -/
theorem test_shl :
    (after 0x810E (startWith [(1, 0x81)] 0)).map (fun t => (t.reg 1, t.reg 15)) = some (2, 1) ∧
    (after 0x812E (startWith [(1, 0x7F)] 0)).map (fun t => (t.reg 1, t.reg 15)) = some (0xFE, 0) := by decide
/-- A24. -/
theorem test_shl_with_vf : (after 0x8FFE (startWith [(15, 0x80)] 0)).map (·.reg 15) = some 1 := by decide

/-! ## Load, move, random -/

/-- L1, L2. -/
theorem test_ld_vk : (after 0x6A2B State.reset).map (·.reg 10) = some 0x2B ∧
    (after 0x6F00 (startWith [(15, 1)] 0)).map (·.reg 15) = some 0 := by decide
/-- L3. -/
theorem test_ld_vv : (after 0x8120 (startWith [(2, 0x55)] 0)).map (fun t => (t.reg 1, t.reg 2)) = some (0x55, 0x55) := by
  decide
/-- L5. -/
theorem test_ld_i : (after 0xA2F0 (startWith [] 0xFFFF)).map (·.i) = some 0x02F0 := by decide
/-- L7, whatever the random byte is. -/
theorem test_rnd_mask_zero : (nextOf (exec (.rnd 3 0x00) (startWith [(3, 0x55)] 0))).map (·.reg 3) = some 0 := by
  have h : Config.rnd 0 &&& 0x00#8 = 0x00#8 := by simp
  show some (Config.rnd 0 &&& 0x00#8) = some 0x00#8
  rw [h]
/-- R503, R734: each execution uses up one draw. -/
theorem test_rnd_draws : (after 0xC3FF State.reset).map (fun t => (t.draws, t.pc, t.reg 15)) = some (1, 0x0202, 0) := by
  decide

/-! ## Display -/

/-- D1, D2: a lit pixel goes out, VF unchanged. -/
theorem test_cls : (after 0x0000 ((startWith [(15, 7)] 0).setFb (Framebuffer.blank.toggle 31 63))).map
    (fun t => (t.fb.pixel 31 63, t.reg 15, t.pc)) = some (false, 7, 0x202) := by decide
/-- D5: wrapping on both axes, bit 7 leftmost. -/
theorem test_drw_wraps : (after 0xD121 (withData (startWith [(1, 0xFF), (2, 0x3F)] 0x300) [0xFF])).map
    (fun t => (t.fb.pixel 31 63, t.fb.pixel 31 0, t.fb.pixel 31 6, t.fb.pixel 31 7, t.fb.pixel 0 0, t.reg 15)) =
    some (true, true, true, false, false, 0) := by decide
/-- D8: VF read as the column before it is written. D10 is `test_range_before_effect`. -/
theorem test_drw_reads_vf_first : (after 0xDF11 (withData (startWith [(15, 5)] 0x300) [0x80])).map
    (fun t => (t.fb.pixel 0 5, t.fb.pixel 0 0, t.reg 15)) = some (true, false, 0) := by decide

/-! ## Keys -/

/-- F3: no key pressed, the instruction again, and the timers tick. -/
theorem test_key_wait : (nextOf (step (atPc 0x210 0xF50A { State.reset with dt := 3 }))).map
    (fun t => (t.pc, t.reg 5, t.dt)) = some (0x0210, 0, 2) := by decide
/-- F4: the lowest pressed key. -/
theorem test_key_taken : (nextOf (step (atPc 0x210 0xF50A (withKeys State.reset [9, 3])))).map
    (fun t => (t.reg 5, t.pc)) = some (3, 0x0212) := by decide

/-! ## Timers, index, memory -/

/-- F1, F2. -/
theorem test_ld_v_dt : (after 0xF307 { State.reset with dt := 0x3C }).map (fun t => (t.reg 3, t.dt)) = some (0x3C, 0x3B) ∧
    (after 0xF307 State.reset).map (fun t => (t.reg 3, t.dt)) = some (0, 0) := by decide
/-- F6, F7. -/
theorem test_ld_dt_v : (after 0xF115 (startWith [(1, 0x10)] 0)).map (·.dt) = some 0x0F ∧
    (after 0xF115 { State.reset with dt := 0x20 }).map (·.dt) = some 0 := by decide
/-- F8, F9. -/
theorem test_ld_st_v : (after 0xF118 (startWith [(1, 1)] 0)).map (fun t => (t.st, portSoundOn t)) = some (0, false) ∧
    (after 0xF118 (startWith [(1, 2)] 0)).map (fun t => (t.st, portSoundOn t)) = some (1, true) := by decide
/-- F11, F12. -/
theorem test_add_i_v : (after 0xF21E (startWith [(2, 1)] 0x0FFF)).map (fun t => (t.i, t.halt)) = some (0x1000, none) ∧
    (after 0xF21E (startWith [(2, 2)] 0xFFFF)).map (·.i) = some 1 := by decide
/-- F13, F15. -/
theorem test_ld_f_v : (after 0xF429 (startWith [(4, 0xA)] 0)).map (·.i) = some 0x0082 ∧
    (after 0xF429 (startWith [(4, 0xF)] 0)).map (·.i) = some 0x009B := by decide
/-- F18. -/
theorem test_ld_b_v : (after 0xF633 (startWith [(6, 0x9C)] 0x300)).map
    (fun t => ([0x2FF, 0x300, 0x301, 0x302, 0x303].map t.mem.read, t.i)) = some ([0, 1, 5, 6, 0], 0x300) := by decide
/-- F22: the font region is refused, and nothing is written below it. -/
theorem test_ld_b_v_protected : (after 0xF633 (startWith [(6, 0x9C)] 0x4E)).map
    (fun t => (t.halt, [0x4E, 0x4F, 0x50].map t.mem.read)) =
    some (some ⟨.protectedWrite, 0x200, some 0xF633, some 0x050⟩, [0, 0, 0xF0]) := by decide
/-- F23. -/
theorem test_ld_mi_v : (after 0xF255 (startWith [(0, 1), (1, 2), (2, 3), (3, 4)] 0x400)).map
    (fun t => ([0x3FF, 0x400, 0x401, 0x402, 0x403].map t.mem.read, t.i)) = some ([0, 1, 2, 3, 0], 0x400) := by decide
/-- F27, F28: the last byte of the font and the first after it. -/
theorem test_ld_mi_v_font_edge : (after 0xF055 (startWith [(0, 0x11)] 0x9F)).map (·.halt) =
      some (some ⟨.protectedWrite, 0x200, some 0xF055, some 0x9F⟩) ∧
    (after 0xF055 (startWith [(0, 0x11)] 0xA0)).map (fun t => (t.halt, t.mem.read 0xA0)) = some (none, 0x11) := by decide
/-- F30. -/
theorem test_ld_v_mi : (after 0xFF65 (startWith [] 0x50)).map (fun t => t.v.toList) =
    some [0xF0, 0x90, 0x90, 0x90, 0xF0, 0x20, 0x60, 0x20, 0x20, 0x70, 0xF0, 0x10, 0xF0, 0x80, 0xF0, 0xF0] := by decide
/-- F31. -/
theorem test_ld_v_mi_past_memory : (after 0xF165 (startWith [(0, 7)] 0xFFF)).map (fun t => (t.halt, t.reg 0)) =
    some (some ⟨.memoryOutOfRange, 0x200, some 0xF165, some 0x1000⟩, 7) := by decide

/-! ## The cycle, faults, reset, ports -/

/-- D10: nothing drawn, VF as before. -/
theorem test_range_before_effect : (after 0xD123 (startWith [(15, 7)] 0xFFE)).map (fun t => (t.halt, t.reg 15)) =
    some (some ⟨.memoryOutOfRange, 0x200, some 0xD123, some 0x1000⟩, 7) := by decide
/-- X1, X5: a fetch fault has no opcode and the lowest offending address. -/
theorem test_fetch_fault :
    (nextOf (step { State.reset with pc := 0x0FFF })).map (·.halt) =
      some (some ⟨.memoryOutOfRange, 0x0FFF, none, some 0x1000⟩) ∧
    (nextOf (step { State.reset with pc := 0xFFFE })).map (·.halt) =
      some (some ⟨.memoryOutOfRange, 0xFFFE, none, some 0xFFFE⟩) := by decide
/-- X6: a faulting cycle does not tick. -/
theorem test_unknown_opcode : (after 0x8128 { State.reset with dt := 5, st := 5 }).map
    (fun t => (t.halt, t.dt, t.st, t.pc)) = some (some ⟨.unknownOpcode, 0x200, some 0x8128, none⟩, 5, 5, 0x200) := by
  decide
/-- R702: the numbers of the six codes. -/
theorem test_fault_numbers : [FaultCode.unknownOpcode, .stackOverflow, .stackUnderflow, .memoryOutOfRange,
    .keyIndexOutOfRange, .protectedWrite].map FaultCode.number = [1, 2, 3, 4, 5, 6] := by decide
/-- X3: the last word of memory runs, and PC is 0x1000 after it. -/
theorem test_last_word_runs : (nextOf (step (atPc 0xFFE 0x00E0 State.reset))).map (fun t => (t.pc, t.halt)) =
    some (0x1000, none) := by decide
/-- X8: reset empties the latch and clears the program. -/
theorem test_reset_port : (after 0x8128 State.reset).map
    (fun t => portReset (Vector.ofFn fun k => Memory.unlisted (0x50 + k.val)) t) = some State.reset := by decide
/-- X14, X13: the load port. -/
theorem test_load_port_too_large : portLoad (List.replicate 3585 0x11#8) State.reset = .error .programTooLarge :=
  if_neg (by rw [List.length_replicate]; decide)
theorem test_load_port_largest : ∃ t, portLoad (List.replicate 3584 0x11#8) State.reset = .ok t :=
  ⟨_, if_pos (by rw [List.length_replicate])⟩
/-- X15. -/
theorem test_host_index : portPixel 32 0 State.reset = .error .hostIndexOutOfRange ∧
    portKeySet 16 true State.reset = .error .hostIndexOutOfRange ∧ portPixel 31 63 State.reset = .ok false := by
  refine ⟨by decide, ?_, by decide⟩
  simp [portKeySet]
/-- R733 on B19's end state: SP, the slots, PC and the latch with its number are shown. -/
theorem test_status_port :
    ((after 0x2300 { State.reset with sp := 16, stack := Vector.replicate 16 0x0202 }).map portStatus).map
      (fun u => (u.sp, u.stack[15], u.pc, u.halt, u.haltCode)) =
    some (16, 0x0202, 0x0200, some ⟨.stackOverflow, 0x200, some 0x2300, none⟩, some 2) := by decide
/-- X16: from reset with nothing placed, the first step runs CLS. -/
theorem test_first_step_from_reset : nextOf (step State.reset) = some { State.reset with pc := 0x202 } := by decide
/-- `withFetchWord` changes memory only, on a running core with a fetchable PC; the font byte F0 keeps the canonical
form when it is written where it stands (20_memory.md R206). -/
theorem test_with_fetch_word : State.reset.withFetchWord 16 0x6A2B = { State.reset with mem := [(0x200, 0x6A), (0x201, 0x2B)] } ∧
    Memory.write [] 0x50 0xF0 = [] ∧ Memory.write [(0x300, 5)] 0x300 0 = [] := by decide

/-! ## Witnesses: the hypotheses of each statement are met together -/

/-- The word the fetch of a state reads. -/
def wordAt (s : State) : Word := s.mem.read s.pc.toNat ++ s.mem.read (s.pc.toNat + 1)

/-- The word stands at the last fetchable PC. -/
def atLast (w : Nat) (s : State) : State := atPc 0xFFE w s

/-- Both sides of the statement's iff: a non-canonical word of `SE V1, V2`, and one bit outside the ignored ones. -/
theorem witness_DecodesExactlyTheMatchingWords :
    (0x512F#16 &&& ~~~ignoredBits (.seVV 1 2) = encode (.seVV 1 2) &&& ~~~ignoredBits (.seVV 1 2)) ∧
    ¬ (0x513F#16 &&& ~~~ignoredBits (.seVV 1 2) = encode (.seVV 1 2) &&& ~~~ignoredBits (.seVV 1 2)) := by decide

/-- One unknown word of each of the four families, and a known word beside it. -/
theorem witness_UnknownWordsExactly :
    [0x0001#16, 0x8AB8#16, 0xE000#16, 0xF000#16].all (fun w => decodeWord w == .error .unknownOpcode) = true ∧
    [0x0000#16, 0x8AB7#16, 0xE001#16, 0xF007#16].all (fun w => decodeWord w != .error .unknownOpcode) = true := by decide

theorem witness_StepRunsTheDecodedInstruction :
    (atLast 0x6A2B State.reset).halt = none ∧ (atLast 0x6A2B State.reset).pc.toNat + 1 = 4095 ∧
    decodeWord (wordAt (atLast 0x6A2B State.reset)) = .ok (.ldVkk 0xA 0x2B) := by decide

theorem witness_HaltedCoreIsStuck : ∃ (s : State) (r : FaultRecord), s.halt = some r ∧ s.dt ≠ 0x00#8 :=
  ⟨{ State.reset with halt := some ⟨.unknownOpcode, 0x200, some 0x8008, none⟩, dt := 9 }, _, rfl, by decide⟩

/-- A fetch fault, and a fault of the execute phase at the last fetchable PC. -/
theorem witness_FaultsArePrecise :
    (∃ t, step { State.reset with pc := 0xFFF } = .next t ∧ t.halt ≠ none) ∧
    (∃ t, step (atLast 0xF055 { State.reset with i := 0x9F }) = .next t ∧ t.halt ≠ none) :=
  ⟨⟨_, rfl, by decide⟩, ⟨_, rfl, by decide⟩⟩

/-- PC at 0x0FFF, 0x1000 and 0xFFFF; each of the four instructions with one byte too many, and I at both ends. -/
theorem witness_MemoryOutOfRangeFaults :
    ([0x0FFF#16, 0x1000#16, 0xFFFF#16].all (fun pc => decide (4096 ≤ pc.toNat + 1)) = true) ∧
    [(0xD123, 0x0FFE#16, 3), (0xF033, 0x0FFE#16, 3), (0xFF55, 0x0FF1#16, 16), (0xF065, 0xFFFF#16, 1),
        (0xF055, 0x1000#16, 1)].all (fun p => decide (
      (atLast p.1 (startWith [] p.2.1)).halt = none ∧ (atLast p.1 (startWith [] p.2.1)).pc.toNat + 1 < 4096 ∧
      0 < p.2.2 ∧ 4096 < p.2.1.toNat + p.2.2)) = true ∧
    decodeWord 0xD123 = .ok (.drw 1 2 3) ∧ decodeWord 0xF033 = .ok (.ldBV 0) ∧ decodeWord 0xFF55 = .ok (.ldMiV 15) ∧
    decodeWord 0xF065 = .ok (.ldVMi 0) ∧ decodeWord 0xF055 = .ok (.ldMiV 0) := by decide

theorem witness_UnknownOpcodeFaults :
    (atLast 0x8008 State.reset).halt = none ∧ (atLast 0x8008 State.reset).pc.toNat + 1 < 4096 ∧
    decodeWord (wordAt (atLast 0x8008 State.reset)) = .error .unknownOpcode := by decide

theorem witness_StackDepthFaults :
    (decodeWord (wordAt (atLast 0x2300 State.reset)) = .ok (.call 0x300) ∧
      (atLast 0x2300 { State.reset with sp := 16 }).sp.val = 16) ∧
    (decodeWord (wordAt (atLast 0x00EE State.reset)) = .ok .ret ∧ (atLast 0x00EE State.reset).sp.val = 0) ∧
    (atLast 0x2300 State.reset).halt = none ∧ (atLast 0x2300 State.reset).pc.toNat + 1 < 4096 := by decide

/-- The register at 0x10 and at 0xFF, both instructions. -/
theorem witness_KeyIndexFaults :
    [(0xE59E, 0x10#8), (0xE59E, 0xFF#8), (0xE5A1, 0x10#8), (0xE5A1, 0xFF#8)].all (fun p => decide (
      (atLast p.1 (startWith [(5, p.2)] 0)).halt = none ∧ (atLast p.1 (startWith [(5, p.2)] 0)).pc.toNat + 1 < 4096 ∧
      15 < ((atLast p.1 (startWith [(5, p.2)] 0)).reg 5).toNat)) = true ∧
    decodeWord 0xE59E = .ok (.skp 5) ∧ decodeWord 0xE5A1 = .ok (.sknp 5) := by decide

/-- `LD B, V0` from 0x4E, whose third byte is the first of the font, and `LD [I], V0` at its last. -/
theorem witness_ProtectedWriteFaults :
    (decodeWord (wordAt (atLast 0xF033 (startWith [] 0x4E))) = .ok (.ldBV 0) ∧ 0x4E ≤ 0x50 ∧ 0x50 < 0x4E + 3 ∧
      ∀ b, 0x4E ≤ b → b < 0x50 → ¬ (0x050 ≤ b ∧ b ≤ 0x09F)) ∧
    (decodeWord (wordAt (atLast 0xF055 (startWith [] 0x9F))) = .ok (.ldMiV 0) ∧ 0x9F ≤ 0x9F ∧ 0x9F < 0x9F + 1 ∧
      ∀ b, 0x9F ≤ b → b < 0x9F → ¬ (0x050 ≤ b ∧ b ≤ 0x09F)) ∧
    (atLast 0xF033 (startWith [] 0x4E)).halt = none ∧ (atLast 0xF033 (startWith [] 0x4E)).pc.toNat + 1 < 4096 :=
  ⟨⟨by decide, by decide, by decide, by omega⟩, ⟨by decide, by decide, by decide, by omega⟩, by decide, by decide⟩

/-- A canonical memory with bytes listed, and a step that stores. -/
theorem witness_StepKeepsMemoryCanonical :
    ∃ t, (atLast 0xF055 (startWith [(0, 7)] 0x300)).mem.wf ∧
      step (atLast 0xF055 (startWith [(0, 7)] 0x300)) = .next t ∧ t.mem.read 0x300 = 7 :=
  ⟨_, by decide, rfl, by decide⟩

/-- A storing step right above the font table, and its first and last byte. -/
theorem witness_FontIsNeverOverwritten :
    ∃ t, step (atLast 0xF055 (startWith [(0, 7)] 0xA0)) = .next t ∧ t.mem.read 0xA0 = 7 ∧
      0x050 ≤ 0x50 ∧ 0x9F ≤ 0x09F ∧ t.mem.read 0x50 = 0xF0 ∧ t.mem.read 0x9F = 0x80 :=
  ⟨_, rfl, by decide, by decide, by decide, by decide, by decide⟩

theorem latchDescribes_of_running {s : State} (h : s.halt = none) : s.latchDescribes := by
  intro r hr
  simp [h] at hr

/-- A running state whose step faults, and the halted state after it. -/
theorem witness_StepKeepsTheLatchTrue :
    ∃ t, (atLast 0x8008 State.reset).latchDescribes ∧ step (atLast 0x8008 State.reset) = .next t ∧ t.halt ≠ none :=
  ⟨_, latchDescribes_of_running rfl, rfl, by decide⟩

/-- A program loaded and run for a step. -/
theorem witness_ReachableStatesAreSound (font : Vector Byte 80) :
    Reachable font (act font .step (act font (.load [0x80, 0x08]) (State.resetWith font))) :=
  .after _ _ (.after _ _ .start)

/-- A storing and a branching instruction that do not fault. -/
theorem witness_EveryInstructionKeepsItsFrame :
    (∃ t, exec (.ldMiV 15) (startWith [(0, 7)] 0xFF0) = .next t ∧ (startWith [(0, 7)] 0xFF0).halt = none ∧
      t.halt = none ∧ storedBytes (.ldMiV 15) = 16) ∧
    (∃ t, exec (.call 0x300) State.reset = .next t ∧ t.halt = none ∧ t.pc ≠ State.reset.pc) :=
  ⟨⟨_, rfl, rfl, by decide, by decide⟩, ⟨_, rfl, by decide, by decide⟩⟩

/-- Depth 16, depth 0, and an instruction outside the pair that completes and one that faults. -/
theorem witness_OnlyCallAndRetAccessTheStack :
    ({ State.reset with sp := 16 } : State).sp.val = 16 ∧ State.reset.sp.val = 0 ∧
    (∃ t, exec (.jp 0x300) State.reset = .next t ∧ t.halt = none) ∧
    (∃ t, exec (.skp 5) (startWith [(5, 0x10)] 0) = .next t ∧ t.halt ≠ none) ∧
    ∀ nnn, Instr.jp 0x300 ≠ .ret ∧ Instr.jp 0x300 ≠ .call nnn :=
  ⟨rfl, rfl, ⟨_, rfl, by decide⟩, ⟨_, rfl, by decide⟩, fun _ => by simp⟩

theorem witness_TimersAreTouchedByTheirInstructionsOnly :
    (∃ t, exec (.jp 0x300) State.reset = .next t) ∧ (∃ t, exec (.ldDtV 1) (startWith [(1, 9)] 0) = .next t ∧ t.dt = 9) ∧
    (∃ t, exec (.ldStV 1) (startWith [(1, 9)] 0) = .next t ∧ t.st = 9) ∧
    (∀ x, Instr.jp 0x300 ≠ .ldVDt x ∧ Instr.jp 0x300 ≠ .ldDtV x) ∧ ∀ x, Instr.jp 0x300 ≠ .ldStV x :=
  ⟨⟨_, rfl⟩, ⟨_, rfl, by decide⟩, ⟨_, rfl, by decide⟩, fun _ => by simp, fun _ => by simp⟩

theorem witness_UnreadStateIsCarriedThrough :
    (∃ t, exec .ret { State.reset with sp := 1 } = .next t ∧ t.halt = none) ∧
    (∀ x y n, Instr.ret ≠ .cls ∧ Instr.ret ≠ .drw x y n) ∧
    (∀ x, Instr.ret ≠ .skp x ∧ Instr.ret ≠ .sknp x ∧ Instr.ret ≠ .ldVKey x) ∧
    ∀ nnn x y n, Instr.ret ≠ .ldI nnn ∧ Instr.ret ≠ .addIV x ∧ Instr.ret ≠ .ldFV x ∧ Instr.ret ≠ .drw x y n ∧
      Instr.ret ≠ .ldBV x ∧ Instr.ret ≠ .ldMiV x ∧ Instr.ret ≠ .ldVMi x :=
  ⟨⟨_, rfl, by decide⟩, by simp, by simp, by simp⟩

/-- Timers at 0, 1 and 255, and a word that sets neither. -/
theorem witness_TimersCountDownOnceACycle :
    (∃ t, step (atLast 0x00E0 { State.reset with dt := 1, st := 0xFF }) = .next t ∧ t.halt = none ∧ t.dt = 0 ∧ t.st = 0xFE) ∧
    (∃ t, step (atLast 0x00E0 State.reset) = .next t ∧ t.halt = none ∧ t.dt = 0) ∧
    (∀ x, decodeWord (wordAt (atLast 0x00E0 State.reset)) ≠ .ok (.ldDtV x)) ∧
    ∀ x, decodeWord (wordAt (atLast 0x00E0 State.reset)) ≠ .ok (.ldStV x) :=
  ⟨⟨_, rfl, by decide, by decide, by decide⟩, ⟨_, rfl, by decide, by decide⟩, by decide, by decide⟩

theorem witness_TimerWriteTicksInTheSameCycle :
    (atLast 0xF115 (startWith [(1, 1)] 0)).halt = none ∧ (atLast 0xF115 (startWith [(1, 1)] 0)).pc.toNat + 1 < 4096 ∧
    decodeWord (wordAt (atLast 0xF115 (startWith [(1, 1)] 0))) = .ok (.ldDtV 1) ∧
    decodeWord (wordAt (atLast 0xF118 (startWith [(1, 0)] 0))) = .ok (.ldStV 1) := by decide

/-- Depths 1, 16 and 0. -/
theorem witness_RetResult : ({ State.reset with sp := 1 } : State).sp.val ≠ 0 ∧
    ({ State.reset with sp := 16 } : State).sp.val ≠ 0 ∧ State.reset.sp.val = 0 := by decide

/-- Depths 0, 15 and 16. -/
theorem witness_CallResult : State.reset.sp.val ≠ 16 ∧ ({ State.reset with sp := 15 } : State).sp.val ≠ 16 ∧
    ({ State.reset with sp := 16 } : State).sp.val = 16 := by decide

/-- From depth 15 to 16 and back. -/
theorem witness_CallThenRetComesBack : ∃ t u : State, ({ State.reset with sp := 15 } : State).halt = none ∧
    exec (.call 0x300) { State.reset with sp := 15 } = .next t ∧ t.halt = none ∧ u.sp = t.sp ∧ u.stack = t.stack ∧
    u.pc ≠ t.pc :=
  ⟨_, { State.reset with sp := 16, stack := State.reset.stack.set 15 0x200 }, rfl, rfl, by decide, by decide, by decide,
    by decide⟩

/-- Registers 0, 15, 16 and 255. -/
theorem witness_KeySkipResults :
    ((startWith [(5, 0)] 0).reg 5).toNat = (0 : Fin 16).val ∧ ((startWith [(5, 15)] 0).reg 5).toNat = (15 : Fin 16).val ∧
    15 < ((startWith [(5, 16)] 0).reg 5).toNat ∧ 15 < ((startWith [(5, 255)] 0).reg 5).toNat := by decide

/-- No row at any I, and fifteen rows up to the last byte of memory. -/
theorem witness_DrawResult : ((0 : Fin 16).val = 0 ∨ (startWith [] 0xFFFF).i.toNat + (0 : Fin 16).val ≤ 4096) ∧
    ((15 : Fin 16).val = 0 ∨ (startWith [] 0xFF1).i.toNat + (15 : Fin 16).val ≤ 4096) := by decide

/-- S6: glyph 0 at (0, 0) on a clear framebuffer. -/
theorem witness_DrawingTwiceErases : ∃ t u : State, (0 : Reg) ≠ 15 ∧ (startWith [] 0x50).halt = none ∧
    exec (.drw 0 0 5) (startWith [] 0x50) = .next t ∧ t.halt = none ∧ exec (.drw 0 0 5) t = .next u ∧
    (startWith [] 0x50).fb.pixel 0 0 = false ∧ t.fb.pixel 0 0 = true ∧ u.fb.pixel 0 0 = false :=
  ⟨_, _, by decide, rfl, rfl, rfl, rfl, by decide, by decide, by decide⟩

/-- Key 0 pressed, key 15 alone, and none, at the last fetchable PC. -/
theorem witness_KeyWaitResult :
    ((withKeys State.reset [0, 15]).key[(0 : Fin 16).val] = true ∧
      ∀ j : Fin 16, j < 0 → (withKeys State.reset [0, 15]).key[j.val] = false) ∧
    ((withKeys State.reset [15]).key[(15 : Fin 16).val] = true ∧
      ∀ j : Fin 16, j < 15 → (withKeys State.reset [15]).key[j.val] = false) ∧
    (∀ k : Fin 16, (atLast 0xF50A State.reset).key[k.val] = false) ∧ (atLast 0xF50A State.reset).halt = none ∧
    (atLast 0xF50A State.reset).pc.toNat + 1 < 4096 ∧ decodeWord (wordAt (atLast 0xF50A State.reset)) = .ok (.ldVKey 5) := by
  decide

/-- Digits 15 and 16; the parameter has one of its two values, and no third. -/
theorem witness_FontAddressResult : ((startWith [(4, 15)] 0).reg 4).toNat ≤ 15 ∧
    15 < ((startWith [(4, 16)] 0).reg 4).toNat ∧ (Config.fontHighDigit = .mask ∨ Config.fontHighDigit = .linear) := by
  refine ⟨by decide, by decide, ?_⟩
  cases Config.fontHighDigit <;> simp

/-- Up to the last byte of memory, the last below the font table, and the first above it. -/
theorem witness_BcdResult : [0x0FFD#16, 0x004D#16, 0x00A0#16].all (fun i =>
    decide (i.toNat + 2 < 4096 ∧ (i.toNat + 2 < 0x050 ∨ 0x09F < i.toNat))) = true := by decide

theorem witness_BlockStoreResult : [(0x0FF0#16, (15 : Reg)), (0x004F#16, 0), (0x0040#16, 15), (0x00A0#16, 0)].all (fun p =>
    decide (p.1.toNat + p.2.val < 4096 ∧ (p.1.toNat + p.2.val < 0x050 ∨ 0x09F < p.1.toNat))) = true := by decide

theorem witness_BlockLoadResult : [(0x0FF0#16, (15 : Reg)), (0x0FFF#16, 0), (0x0000#16, 15)].all (fun p =>
    decide (p.1.toNat + p.2.val < 4096)) = true := by decide

theorem witness_BlockStoreThenLoad : ∃ t : State, (startWith [(0, 7), (15, 9)] 0xFF0).halt = none ∧
    exec (.ldMiV 15) (startWith [(0, 7), (15, 9)] 0xFF0) = .next t ∧ t.halt = none ∧
    ({ State.reset with mem := t.mem, i := t.i } : State).mem = t.mem ∧ t.mem.read 0xFFF = 9 :=
  ⟨_, rfl, rfl, rfl, rfl, by decide⟩

/-- Self-modifying code at 0x300 and at the end of memory. -/
theorem witness_StoredBytesAreFetched :
    (∃ t, exec (.ldMiV 1) { startWith [(0, 0x61), (1, 0x2B)] 0x300 with pc := 0x300 } = .next t ∧ t.halt = none ∧
      (1 : Reg) ≤ 1 ∧ t.pc = 0x300 ∧ t.mem.read 0x301 = 0x2B) ∧
    (∃ t, exec (.ldMiV 1) { startWith [(0, 0x61), (1, 0x2B)] 0xFFE with pc := 0xFFE } = .next t ∧ t.halt = none ∧
      t.pc = 0xFFE) :=
  ⟨⟨_, rfl, rfl, by decide, by decide, by decide⟩, ⟨_, rfl, rfl, by decide⟩⟩

/-- Both sides of the font table. -/
theorem witness_ResetValues : (0x04F < 0x050 ∨ 0x09F < 0x04F) ∧ (0x0A0 < 0x050 ∨ 0x09F < 0x0A0) := by decide

/-- No byte, the largest image, and one byte more. -/
theorem witness_LoadPortResult : ([] : List Byte).length ≤ 3584 ∧ (List.replicate 3584 0x11#8).length ≤ 3584 ∧
    3584 < (List.replicate 3585 0x11#8).length := by
  rw [List.length_replicate, List.length_replicate]
  decide

/-- Keys 15 and 16; the last pixel, and one row and one column past it. -/
theorem witness_HostPortResults : 15 ≤ 15 ∧ 15 < 16 ∧ (31 < 32 ∧ 63 < 64) ∧ (31 < 32 ∨ 63 < 0) ∧ (31 < 0 ∨ 63 < 64) := by
  decide

/-- An empty latch, a latched fault, and two states with the same status. -/
theorem witness_StatusShowsTheWholeState :
    State.reset.halt = none ∧
    (∃ r, ({ State.reset with halt := some ⟨.protectedWrite, 0x200, some 0xF055, some 0x9F⟩ } : State).halt = some r) ∧
    portStatus State.reset = portStatus { State.reset with draws := 5 } :=
  ⟨rfl, ⟨_, rfl⟩, rfl⟩

end Sys2Proof.Tests
end

section
/-! The stack column of the access matrix (10_state.md R108): every instruction but `CALL` and `RET` commutes with
replacing SP and the slots, so it neither reads nor writes them. -/

namespace Sys2Proof.Machine

/-- An answer of the execute phase with its next state changed by `f`; a stop is kept. -/
def mapNext (f : State → State) : Result → Result
  | .next t => .next (f t)
  | .fault r => .fault r
  | .refused r => .refused r

@[simp] theorem mapNext_next (f : State → State) (t : State) : mapNext f (.next t) = .next (f t) := rfl

/-- A checked access commutes with `f` when its fault and its effect do. -/
theorem unlessFault_mapNext (f : State → State) (e : Option (FaultCode × Nat)) (s s' : State)
    (hraise : ∀ c a, raise (f s) c a = mapNext f (raise s c a)) :
    unlessFault e (f s) (f s') = mapNext f (unlessFault e s s') := by
  cases e with
  | none => rfl
  | some ca => exact hraise ca.1 (some ca.2)

/-! ## Replacing SP and the slots -/

/-- The state with another depth and other slots. -/
def State.withStack (p : Fin 17) (k : Vector Word 16) (s : State) : State := { s with sp := p, stack := k }

section
variable (p : Fin 17) (k : Vector Word 16) (s : State)

theorem State.skipIf_withStack (c : Bool) : (s.withStack p k).skipIf c = (s.skipIf c).withStack p k := by
  cases c <;> rfl

/-- The fault record holds neither SP nor a slot. -/
theorem raise_withStack (c : FaultCode) (a : Option Nat) :
    raise (s.withStack p k) c a = mapNext (State.withStack p k) (raise s c a) := rfl

theorem unlessFault_withStack (e : Option (FaultCode × Nat)) {s' u' : State} (h : u' = s'.withStack p k) :
    unlessFault e (s.withStack p k) u' = mapNext (State.withStack p k) (unlessFault e s s') :=
  h ▸ unlessFault_mapNext _ e s s' (raise_withStack p k s)

theorem skipOnKey_withStack (x : Reg) (pressed : Bool) :
    skipOnKey x pressed (s.withStack p k) = mapNext (State.withStack p k) (skipOnKey x pressed s) := by
  have hreg : (s.withStack p k).reg x = s.reg x := rfl
  unfold skipOnKey
  rw [hreg]
  cases keyIndex (s.reg x) with
  | none => exact raise_withStack p k s _ _
  | some key => exact congrArg Host.Outcome.next (s.skipIf_withStack p k _)

theorem execLdVKey_withStack (x : Reg) :
    execLdVKey x (s.withStack p k) = mapNext (State.withStack p k) (execLdVKey x s) := by
  have hkey : (s.withStack p k).lowestKey = s.lowestKey := rfl
  unfold execLdVKey
  rw [hkey]
  cases s.lowestKey <;> rfl

/-- Outside `CALL` and `RET` the execute phase commutes with replacing SP and the slots: a skip, a key index, a checked
access and the key wait by their own lemmas, the other forms because their one update touches another field. -/
theorem exec_withStack (i : Instr) (h : ∀ nnn, i ≠ .ret ∧ i ≠ .call nnn) :
    exec i (s.withStack p k) = mapNext (State.withStack p k) (exec i s) := by
  cases i with
  | ret => exact absurd rfl (h 0).1
  | call nnn => exact absurd rfl (h nnn).2
  | seVkk | sneVkk | seVV | sneVV => exact congrArg Host.Outcome.next (s.skipIf_withStack p k _)
  | skp x => exact skipOnKey_withStack p k s x true
  | sknp x => exact skipOnKey_withStack p k s x false
  | ldVKey x => exact execLdVKey_withStack p k s x
  | drw | ldBV | ldMiV | ldVMi => exact unlessFault_withStack p k s _ rfl
  | cls | jp | ldVkk | addVkk | ldVV | or | and | xor | addVV | sub | shr | subn | shl | ldI | jpV0 | rnd | ldVDt
  | ldDtV | ldStV | addIV | ldFV => rfl

end

/-! ## The two fatal depths -/

theorem exec_call_of_full (nnn : Imm12) (s : State) (h : s.sp = 16) :
    exec (.call nnn) s = raise s .stackOverflow none := if_pos h

theorem exec_ret_of_empty (s : State) (h : s.sp = 0) : exec .ret s = raise s .stackUnderflow none := if_pos h

/-- Settles O21: the fatal depths are `exec_call_of_full` and `exec_ret_of_empty`; the rest is `exec_withStack` on an
execution that answers a next state. -/
theorem onlyCallAndRetAccessTheStack : Obligations.OnlyCallAndRetAccessTheStack := by
  refine ⟨fun nnn s h => ?_, fun s h => ?_, fun i s t p k hi ht => ?_⟩
  · exact ⟨_, _, exec_call_of_full nnn s (Fin.ext h), rfl, rfl⟩
  · exact ⟨_, _, exec_ret_of_empty s (Fin.ext h), rfl, rfl⟩
  · calc exec i (s.withStack p k)
        = mapNext (State.withStack p k) (exec i s) := exec_withStack p k s i hi
      _ = .next (t.withStack p k) := by rw [ht, mapNext_next]

end Sys2Proof.Machine
end

section
/-! Jumps and the skips on registers and immediates (41_control_flow.md R402, R404 to R407): their words, and the whole
next state of each. -/

namespace Sys2Proof

/-! ## The words, for every value of every field -/

@[simp] theorem decodeWord_jp (nnn : BitVec 12) : decodeWord (0x1#4 ++ nnn) = .ok (.jp nnn) := by
  simp [decodeWord]

@[simp] theorem decodeWord_seVkk (x : BitVec 4) (kk : BitVec 8) :
    decodeWord (0x3#4 ++ x ++ kk) = .ok (.seVkk x.toFin kk) := by
  simp [decodeWord]

@[simp] theorem decodeWord_sneVkk (x : BitVec 4) (kk : BitVec 8) :
    decodeWord (0x4#4 ++ x ++ kk) = .ok (.sneVkk x.toFin kk) := by
  simp [decodeWord]

@[simp] theorem decodeWord_seVV (x y g : BitVec 4) :
    decodeWord (0x5#4 ++ x ++ y ++ g) = .ok (.seVV x.toFin y.toFin) := by
  simp [decodeWord]

@[simp] theorem decodeWord_sneVV (x y g : BitVec 4) :
    decodeWord (0x9#4 ++ x ++ y ++ g) = .ok (.sneVV x.toFin y.toFin) := by
  simp [decodeWord]

end Sys2Proof

namespace Sys2Proof.Machine

/-! ## The jump -/

/-- Widening an address with zeros keeps its value. -/
@[simp] theorem zext16_toNat (nnn : Imm12) : (zext16 nnn).toNat = nnn.toNat :=
  BitVec.toNat_setWidth_of_le (by decide)

theorem exec_jp (nnn : Imm12) (s : State) : exec (.jp nnn) s = .next { s with pc := zext16 nnn } := rfl

/-- Settles O27: the target of `exec_jp` has the value of nnn. -/
theorem jpResult : Obligations.JpResult :=
  ⟨decodeWord_jp, fun nnn s => ⟨_, exec_jp nnn s, zext16_toNat nnn, rfl⟩⟩

/-! ## The skips -/

/-- A skip on equality of two bytes. -/
theorem State.skipIf_beq (s : State) (a b : Byte) :
    s.skipIf (a == b) = { s with pc := if a = b then s.pc + 2#16 else s.pc } := by
  simp only [State.skipIf_eq, beq_iff_eq]

/-- A skip on inequality of two bytes. -/
theorem State.skipIf_bne (s : State) (a b : Byte) :
    s.skipIf (a != b) = { s with pc := if a = b then s.pc else s.pc + 2#16 } := by
  simp only [State.skipIf_eq, bne_iff_ne, ite_not]

/-- Settles O30: SE is `State.skipIf_beq` and SNE is `State.skipIf_bne`, on the immediate or on Vy. -/
theorem skipResults : Obligations.SkipResults := by
  refine ⟨⟨decodeWord_seVkk, decodeWord_sneVkk, decodeWord_seVV, decodeWord_sneVV⟩, fun x y kk s => ⟨?_, ?_, ?_, ?_⟩⟩
  · exact congrArg Host.Outcome.next (s.skipIf_beq (s.reg x) kk)
  · exact congrArg Host.Outcome.next (s.skipIf_bne (s.reg x) kk)
  · exact congrArg Host.Outcome.next (s.skipIf_beq (s.reg x) (s.reg y))
  · exact congrArg Host.Outcome.next (s.skipIf_bne (s.reg x) (s.reg y))

end Sys2Proof.Machine
end

section
/-! Loads and moves (43_load_move.md R500 to R502): their words, and the whole next state of each. -/

namespace Sys2Proof

/-! ## The words, for every value of every field -/

@[simp] theorem decodeWord_ldVkk (x : BitVec 4) (kk : BitVec 8) :
    decodeWord (0x6#4 ++ x ++ kk) = .ok (.ldVkk x.toFin kk) := by
  simp [decodeWord]

@[simp] theorem decodeWord_ldVV (x y : BitVec 4) :
    decodeWord (0x8#4 ++ x ++ y ++ 0x0#4) = .ok (.ldVV x.toFin y.toFin) := by
  simp [decodeWord, decodeFamily8]

@[simp] theorem decodeWord_ldI (nnn : BitVec 12) : decodeWord (0xA#4 ++ nnn) = .ok (.ldI nnn) := by
  simp [decodeWord]

end Sys2Proof

namespace Sys2Proof.Machine

/-! ## Into a register -/

theorem exec_ldVkk (x : Reg) (kk : Byte) (s : State) : exec (.ldVkk x kk) s = .next (s.setReg x kk) := rfl

theorem exec_ldVV (x y : Reg) (s : State) : exec (.ldVV x y) s = .next (s.setReg x (s.reg y)) := rfl

/-- Settles O38: both forms are one register write, of kk or of Vy, and `State.reg_setReg` reads it back. -/
theorem loadRegisterResults : Obligations.LoadRegisterResults :=
  ⟨⟨decodeWord_ldVkk, decodeWord_ldVV⟩, fun x y kk s =>
    ⟨⟨_, exec_ldVkk x kk s, fun r => s.reg_setReg x r kk, s.setReg_frame x kk⟩,
     ⟨_, exec_ldVV x y s, fun r => s.reg_setReg x r (s.reg y), s.setReg_frame x (s.reg y)⟩⟩⟩

/-! ## Into I -/

theorem exec_ldI (nnn : Imm12) (s : State) : exec (.ldI nnn) s = .next (s.setI (zext16 nnn)) := rfl

/-- Settles O39: I is written with nnn widened, which `zext16_toNat` says keeps its value. -/
theorem loadIndexResult : Obligations.LoadIndexResult :=
  ⟨decodeWord_ldI, fun nnn s => ⟨_, exec_ldI nnn s, zext16_toNat nnn, rfl⟩⟩

end Sys2Proof.Machine
end

section
/-! Clearing the display (44_display.md R550): its words, and the whole next state. -/

namespace Sys2Proof

/-- Bits 11 to 4 of the word are ignored (30_encoding.md R312). -/
@[simp] theorem decodeWord_cls (g : BitVec 8) : decodeWord (0x0#4 ++ g ++ 0x0#4) = .ok .cls := by
  simp [decodeWord, decodeFamily0]

end Sys2Proof

namespace Sys2Proof.Machine

theorem exec_cls (s : State) : exec .cls s = .next (s.setFb Framebuffer.blank) := rfl

/-- Settles O41: the one update is the framebuffer's, and every pixel of what it writes is unlit by
`Framebuffer.pixel_blank`. -/
theorem clearResult : Obligations.ClearResult :=
  ⟨decodeWord_cls, fun s => ⟨_, exec_cls s, Framebuffer.pixel_blank, rfl⟩⟩

end Sys2Proof.Machine
end

section
/-! The key wait (45_fx_family.md R611): its words, the key it latches, and the waiting cycle. -/

namespace Sys2Proof

@[simp] theorem decodeWord_ldVKey (x : BitVec 4) : decodeWord (0xF#4 ++ x ++ 0x0A#8) = .ok (.ldVKey x.toFin) := by
  simp [decodeWord, decodeFamilyF]

end Sys2Proof

namespace Sys2Proof.Machine

/-! ## The cycle of a decoded instruction -/

/-- A running core that can fetch a word of the instruction i executes i after the fetch advance and ends the cycle
(30_encoding.md R330). -/
theorem step_of_decoded (s : State) (i : Instr) (hrun : s.halt = none) (hpc : s.pc.toNat + 1 < 4096)
    (hdec : decodeWord (s.mem.read s.pc.toNat ++ s.mem.read (s.pc.toNat + 1)) = .ok i) :
    step s = finish (exec i s.advance) := by
  simp only [step, hrun, State.fetch_ok s hpc, hdec]

/-! ## A key, or none -/

theorem exec_ldVKey_of_key (x : Reg) (s : State) {k : Nat} (h : s.lowestKey = some k) :
    exec (.ldVKey x) s = .next (s.setReg x (BitVec.ofNat 8 k)) := by
  simp only [exec, execLdVKey, h]

theorem exec_ldVKey_of_noKey (x : Reg) (s : State) (h : s.lowestKey = none) :
    exec (.ldVKey x) s = .next s.rewind := by
  simp only [exec, execLdVKey, h]

/-- A key's number fits a register. -/
theorem keyByte_toNat (k : Fin 16) : (BitVec.ofNat 8 k.val).toNat = k.val :=
  Nat.mod_eq_of_lt (by omega)

/-- A whole cycle of the key wait with no key pressed is the timer tick: the rewind undoes the fetch advance. -/
theorem step_ldVKey_of_noKey (x : Reg) (s : State) (hrun : s.halt = none) (hpc : s.pc.toNat + 1 < 4096)
    (hdec : decodeWord (s.mem.read s.pc.toNat ++ s.mem.read (s.pc.toNat + 1)) = .ok (.ldVKey x))
    (h : s.lowestKey = none) : step s = .next s.tick := by
  calc step s
      = finish (exec (.ldVKey x) s.advance) := step_of_decoded s _ hrun hpc hdec
    _ = finish (.next s.advance.rewind) := by rw [exec_ldVKey_of_noKey x s.advance h]
    _ = .next s.endCycle := by rw [State.rewind_advance, finish]
    _ = .next s.tick := by rw [State.endCycle_of_running s hrun]

/-- Settles O45: the lowest pressed key is written by `exec_ldVKey_of_key`; with none pressed PC goes back by
`exec_ldVKey_of_noKey`, and `step_ldVKey_of_noKey` makes the cycle a tick. -/
theorem keyWaitResult : Obligations.KeyWaitResult := by
  refine ⟨decodeWord_ldVKey, fun x s => ⟨fun k hk hlow => ?_, fun hnone => ?_⟩⟩
  · refine ⟨_, exec_ldVKey_of_key x s (s.lowestKey_eq_some k hk hlow), fun r => ?_, s.setReg_frame x _⟩
    rw [State.reg_setReg, apply_ite BitVec.toNat, keyByte_toNat]
  · have hkey : s.lowestKey = none := s.lowestKey_eq_none hnone
    exact ⟨exec_ldVKey_of_noKey x s hkey, fun hrun hpc hdec =>
      ⟨_, step_ldVKey_of_noKey x s hrun hpc hdec hkey, tickTimer_toNat s.dt, tickTimer_toNat s.st, rfl⟩⟩

end Sys2Proof.Machine
end

section
/-! The core's faults (60_exceptions.md R704, R709 to R712): the cycle that takes each of them, and the record it latches. -/

namespace Sys2Proof.Machine

/-! ## The record -/

theorem State.fetched_of_unfetchable (s : State) (h : 4096 ≤ s.pc.toNat + 1) : s.fetched = none := by
  rw [State.fetched_eq, if_pos h]

theorem State.fetched_of_fetchable (s : State) (h : s.pc.toNat + 1 < 4096) :
    s.fetched = some (s.mem.read s.pc.toNat ++ s.mem.read (s.pc.toNat + 1)) := by
  rw [State.fetched_eq, if_neg (by omega)]

/-- The record of a fault after the fetch names PC and the word there (R703). -/
theorem State.halt_latch_of_fetchable (s : State) (c : FaultCode) (a : Option Nat) (h : s.pc.toNat + 1 < 4096) :
    (s.latch c a).halt =
      some ⟨c, s.pc, some (s.mem.read s.pc.toNat ++ s.mem.read (s.pc.toNat + 1)), a.map (BitVec.ofNat 17)⟩ := by
  rw [← s.fetched_of_fetchable h]; rfl

/-! ## The cycle that faults in its fetch, its decode or its execute phase -/

theorem step_of_unfetchable (s : State) (hrun : s.halt = none) (h : 4096 ≤ s.pc.toNat + 1) :
    step s = .next (s.latch .memoryOutOfRange (some (max s.pc.toNat 4096))) := by
  simp only [step, hrun, State.fetch_error s h]

theorem step_of_undecodable (s : State) (e : DecodeError) (hrun : s.halt = none) (hpc : s.pc.toNat + 1 < 4096)
    (hdec : decodeWord (s.mem.read s.pc.toNat ++ s.mem.read (s.pc.toNat + 1)) = .error e) :
    step s = .next (s.latch .unknownOpcode none) := by
  simp only [step, hrun, State.fetch_ok s hpc, hdec]

/-- A latched state ends its cycle as it is: no tick. -/
@[simp] theorem State.endCycle_latch (s : State) (c : FaultCode) (a : Option Nat) :
    (s.latch c a).endCycle = s.latch c a := rfl

/-- A fault of the execute phase latches the state at the start of the cycle. -/
theorem step_of_raise (s : State) (i : Instr) (c : FaultCode) (a : Option Nat) (hrun : s.halt = none)
    (hpc : s.pc.toNat + 1 < 4096)
    (hdec : decodeWord (s.mem.read s.pc.toNat ++ s.mem.read (s.pc.toNat + 1)) = .ok i)
    (hraise : exec i s.advance = raise s.advance c a) : step s = .next (s.latch c a) := by
  calc step s
      = finish (exec i s.advance) := step_of_decoded s i hrun hpc hdec
    _ = finish (.next (s.latch c a)) := by rw [hraise, raise_advance]
    _ = .next (s.latch c a) := by rw [finish, State.endCycle_latch]

/-! ## An access that leaves memory -/

theorem readFault_of_outside (base n : Nat) (hn : 0 < n) (h : 4096 < base + n) :
    readFault base n = some (.memoryOutOfRange, max base 4096) := by
  rw [readFault_eq, if_pos ⟨hn, h⟩]

/-- The range is checked before the font region (R720). -/
theorem writeFault_of_outside (base n : Nat) (hn : 0 < n) (h : 4096 < base + n) :
    writeFault base n = some (.memoryOutOfRange, max base 4096) :=
  (writeFault_eq_some base n _ _).2 (.inl ⟨hn, h, rfl, rfl⟩)

/-- Each instruction that accesses n bytes from I up faults when the last of them is outside memory. -/
theorem exec_of_outside (s : State) (i : Instr) (n : Nat)
    (hacc : (∃ x y k, i = .drw x y k ∧ n = k.val) ∨ (∃ x, i = .ldBV x ∧ n = 3) ∨
      (∃ x, i = .ldMiV x ∧ n = x.val + 1) ∨ (∃ x, i = .ldVMi x ∧ n = x.val + 1))
    (hn : 0 < n) (h : 4096 < s.i.toNat + n) :
    exec i s = raise s .memoryOutOfRange (some (max s.i.toNat 4096)) := by
  have hread := readFault_of_outside s.i.toNat n hn h
  have hwrite := writeFault_of_outside s.i.toNat n hn h
  obtain ⟨x, y, k, rfl, rfl⟩ | ⟨x, rfl, rfl⟩ | ⟨x, rfl, rfl⟩ | ⟨x, rfl, rfl⟩ := hacc
  · simp only [exec, execDrw, hread, unlessFault_some]
  · simp only [exec, execLdBV, hwrite, unlessFault_some]
  · simp only [exec, execLdMiV, blockCount, hwrite, unlessFault_some]
  · simp only [exec, execLdVMi, blockCount, hread, unlessFault_some]

/-- Settles O10: the fetch faults by `step_of_unfetchable`, with no word to record; the four instructions raise the fault
by `exec_of_outside`, with the fetched word in the record. -/
theorem memoryOutOfRangeFaults : Obligations.MemoryOutOfRangeFaults := by
  refine ⟨fun s hrun hpc => ?_, fun s op i n hrun hpc hop hdec hacc hn h => ?_⟩
  · refine ⟨_, step_of_unfetchable s hrun hpc, ?_⟩
    rw [← s.fetched_of_unfetchable hpc]; rfl
  · subst hop
    exact ⟨_, step_of_raise s i _ _ hrun hpc hdec (exec_of_outside s.advance i n hacc hn h),
      s.halt_latch_of_fetchable _ _ hpc⟩

/-- Settles O11: the step is `step_of_undecodable`, and a latch changes HALT alone. -/
theorem unknownOpcodeFaults : Obligations.UnknownOpcodeFaults := by
  rintro s op hrun hpc rfl hdec
  exact ⟨_, step_of_undecodable s _ hrun hpc hdec, s.halt_latch_of_fetchable _ _ hpc, rfl, rfl, rfl, rfl, rfl, rfl, rfl⟩

/-- Settles O12: the fatal depths raise by `exec_call_of_full` and `exec_ret_of_empty`, and the fetch advance leaves SP
as it was. -/
theorem stackDepthFaults : Obligations.StackDepthFaults := by
  rintro s op hrun hpc rfl
  refine ⟨fun nnn hdec hsp => ?_, fun hdec hsp => ?_⟩
  · exact ⟨_, step_of_raise s _ _ _ hrun hpc hdec (exec_call_of_full nnn s.advance (Fin.ext hsp)),
      s.halt_latch_of_fetchable _ _ hpc⟩
  · exact ⟨_, step_of_raise s _ _ _ hrun hpc hdec (exec_ret_of_empty s.advance (Fin.ext hsp)),
      s.halt_latch_of_fetchable _ _ hpc⟩

end Sys2Proof.Machine
end

section
/-! The opcode map (30_encoding.md R310 to R317): the words of each form, the inverse of the encoder, the words a decoded
instruction has, and the words that are no instruction. -/

namespace Sys2Proof

/-! ## The words, for every value of every field -/

@[simp] theorem decodeWord_ret (g : BitVec 8) : decodeWord (0x0#4 ++ g ++ 0xE#4) = .ok .ret := by
  simp [decodeWord, decodeFamily0]

@[simp] theorem decodeWord_call (nnn : BitVec 12) : decodeWord (0x2#4 ++ nnn) = .ok (.call nnn) := by
  simp [decodeWord]

@[simp] theorem decodeWord_addVkk (x : BitVec 4) (kk : BitVec 8) :
    decodeWord (0x7#4 ++ x ++ kk) = .ok (.addVkk x.toFin kk) := by
  simp [decodeWord]

/-- The words of family 0x8 decode as the low nibble says (R313). -/
theorem decodeWord_family8_xyn (x y k : BitVec 4) :
    decodeWord (0x8#4 ++ x ++ y ++ k) = decodeFamily8 (0x8#4 ++ x ++ y ++ k) := by
  simp [decodeWord]

@[simp] theorem decodeWord_or (x y : BitVec 4) :
    decodeWord (0x8#4 ++ x ++ y ++ 0x1#4) = .ok (.or x.toFin y.toFin) := by
  simp [decodeWord_family8_xyn, decodeFamily8]

@[simp] theorem decodeWord_and (x y : BitVec 4) :
    decodeWord (0x8#4 ++ x ++ y ++ 0x2#4) = .ok (.and x.toFin y.toFin) := by
  simp [decodeWord_family8_xyn, decodeFamily8]

@[simp] theorem decodeWord_xor (x y : BitVec 4) :
    decodeWord (0x8#4 ++ x ++ y ++ 0x3#4) = .ok (.xor x.toFin y.toFin) := by
  simp [decodeWord_family8_xyn, decodeFamily8]

@[simp] theorem decodeWord_addVV (x y : BitVec 4) :
    decodeWord (0x8#4 ++ x ++ y ++ 0x4#4) = .ok (.addVV x.toFin y.toFin) := by
  simp [decodeWord_family8_xyn, decodeFamily8]

@[simp] theorem decodeWord_sub (x y : BitVec 4) :
    decodeWord (0x8#4 ++ x ++ y ++ 0x5#4) = .ok (.sub x.toFin y.toFin) := by
  simp [decodeWord_family8_xyn, decodeFamily8]

@[simp] theorem decodeWord_shr (x y : BitVec 4) :
    decodeWord (0x8#4 ++ x ++ y ++ 0x6#4) = .ok (.shr x.toFin y.toFin) := by
  simp [decodeWord_family8_xyn, decodeFamily8]

@[simp] theorem decodeWord_subn (x y : BitVec 4) :
    decodeWord (0x8#4 ++ x ++ y ++ 0x7#4) = .ok (.subn x.toFin y.toFin) := by
  simp [decodeWord_family8_xyn, decodeFamily8]

@[simp] theorem decodeWord_shl (x y : BitVec 4) :
    decodeWord (0x8#4 ++ x ++ y ++ 0xE#4) = .ok (.shl x.toFin y.toFin) := by
  simp [decodeWord_family8_xyn, decodeFamily8]

@[simp] theorem decodeWord_jpV0 (nnn : BitVec 12) : decodeWord (0xB#4 ++ nnn) = .ok (.jpV0 nnn) := by
  simp [decodeWord]

@[simp] theorem decodeWord_rnd (x : BitVec 4) (kk : BitVec 8) :
    decodeWord (0xC#4 ++ x ++ kk) = .ok (.rnd x.toFin kk) := by
  simp [decodeWord]

@[simp] theorem decodeWord_drw (x y n : BitVec 4) :
    decodeWord (0xD#4 ++ x ++ y ++ n) = .ok (.drw x.toFin y.toFin n.toFin) := by
  simp [decodeWord]

/-- Bits 7 to 4 of the word are ignored (R314). -/
@[simp] theorem decodeWord_skp (x g : BitVec 4) : decodeWord (0xE#4 ++ x ++ g ++ 0xE#4) = .ok (.skp x.toFin) := by
  simp [decodeWord, decodeFamilyE]

@[simp] theorem decodeWord_sknp (x g : BitVec 4) : decodeWord (0xE#4 ++ x ++ g ++ 0x1#4) = .ok (.sknp x.toFin) := by
  simp [decodeWord, decodeFamilyE]

/-- The words of family 0xF decode as the low byte says (R315). -/
theorem decodeWord_familyF_xkk (x : BitVec 4) (kk : BitVec 8) :
    decodeWord (0xF#4 ++ x ++ kk) = decodeFamilyF (0xF#4 ++ x ++ kk) := by
  simp [decodeWord]

@[simp] theorem decodeWord_ldVDt (x : BitVec 4) : decodeWord (0xF#4 ++ x ++ 0x07#8) = .ok (.ldVDt x.toFin) := by
  simp [decodeWord_familyF_xkk, decodeFamilyF]

@[simp] theorem decodeWord_ldDtV (x : BitVec 4) : decodeWord (0xF#4 ++ x ++ 0x15#8) = .ok (.ldDtV x.toFin) := by
  simp [decodeWord_familyF_xkk, decodeFamilyF]

@[simp] theorem decodeWord_ldStV (x : BitVec 4) : decodeWord (0xF#4 ++ x ++ 0x18#8) = .ok (.ldStV x.toFin) := by
  simp [decodeWord_familyF_xkk, decodeFamilyF]

@[simp] theorem decodeWord_addIV (x : BitVec 4) : decodeWord (0xF#4 ++ x ++ 0x1E#8) = .ok (.addIV x.toFin) := by
  simp [decodeWord_familyF_xkk, decodeFamilyF]

@[simp] theorem decodeWord_ldFV (x : BitVec 4) : decodeWord (0xF#4 ++ x ++ 0x29#8) = .ok (.ldFV x.toFin) := by
  simp [decodeWord_familyF_xkk, decodeFamilyF]

@[simp] theorem decodeWord_ldBV (x : BitVec 4) : decodeWord (0xF#4 ++ x ++ 0x33#8) = .ok (.ldBV x.toFin) := by
  simp [decodeWord_familyF_xkk, decodeFamilyF]

@[simp] theorem decodeWord_ldMiV (x : BitVec 4) : decodeWord (0xF#4 ++ x ++ 0x55#8) = .ok (.ldMiV x.toFin) := by
  simp [decodeWord_familyF_xkk, decodeFamilyF]

@[simp] theorem decodeWord_ldVMi (x : BitVec 4) : decodeWord (0xF#4 ++ x ++ 0x65#8) = .ok (.ldVMi x.toFin) := by
  simp [decodeWord_familyF_xkk, decodeFamilyF]

/-- Settles O4: one lemma per form, in the order of the table. -/
theorem opcodeMapByFields : Obligations.OpcodeMapByFields :=
  ⟨decodeWord_cls, decodeWord_ret, decodeWord_jp, decodeWord_call, decodeWord_seVkk, decodeWord_sneVkk, decodeWord_seVV,
    decodeWord_ldVkk, decodeWord_addVkk, decodeWord_ldVV, decodeWord_or, decodeWord_and, decodeWord_xor, decodeWord_addVV,
    decodeWord_sub, decodeWord_shr, decodeWord_subn, decodeWord_shl, decodeWord_sneVV, decodeWord_ldI, decodeWord_jpV0,
    decodeWord_rnd, decodeWord_drw, decodeWord_skp, decodeWord_sknp, decodeWord_ldVDt, decodeWord_ldVKey,
    decodeWord_ldDtV, decodeWord_ldStV, decodeWord_addIV, decodeWord_ldFV, decodeWord_ldBV, decodeWord_ldMiV,
    decodeWord_ldVMi⟩

/-- Settles O1: a finite table of closed words, evaluated. -/
theorem sampleWordsDecode : Obligations.SampleWordsDecode := by
  unfold Obligations.SampleWordsDecode
  decide

/-! ## The canonical word decodes to its instruction -/

@[simp] theorem toFin_nibble (r : Fin 16) : (nibble r).toFin = r := rfl

theorem decodeWord_encode (i : Instr) : decodeWord (encode i) = .ok i := by
  cases i with
  | cls => exact decodeWord_cls 0x0E#8
  | ret => exact decodeWord_ret 0x0E#8
  | jp nnn => exact decodeWord_jp nnn
  | call nnn => exact decodeWord_call nnn
  | seVkk x kk => exact decodeWord_seVkk (nibble x) kk
  | sneVkk x kk => exact decodeWord_sneVkk (nibble x) kk
  | seVV x y => exact decodeWord_seVV (nibble x) (nibble y) 0x0#4
  | ldVkk x kk => exact decodeWord_ldVkk (nibble x) kk
  | addVkk x kk => exact decodeWord_addVkk (nibble x) kk
  | ldVV x y => exact decodeWord_ldVV (nibble x) (nibble y)
  | or x y => exact decodeWord_or (nibble x) (nibble y)
  | and x y => exact decodeWord_and (nibble x) (nibble y)
  | xor x y => exact decodeWord_xor (nibble x) (nibble y)
  | addVV x y => exact decodeWord_addVV (nibble x) (nibble y)
  | sub x y => exact decodeWord_sub (nibble x) (nibble y)
  | shr x y => exact decodeWord_shr (nibble x) (nibble y)
  | subn x y => exact decodeWord_subn (nibble x) (nibble y)
  | shl x y => exact decodeWord_shl (nibble x) (nibble y)
  | sneVV x y => exact decodeWord_sneVV (nibble x) (nibble y) 0x0#4
  | ldI nnn => exact decodeWord_ldI nnn
  | jpV0 nnn => exact decodeWord_jpV0 nnn
  | rnd x kk => exact decodeWord_rnd (nibble x) kk
  | drw x y n => exact decodeWord_drw (nibble x) (nibble y) (nibble n)
  | skp x => simp [encode, wordXkk, decodeWord, decodeFamilyE]
  | sknp x => simp [encode, wordXkk, decodeWord, decodeFamilyE]
  | ldVDt x => exact decodeWord_ldVDt (nibble x)
  | ldVKey x => exact decodeWord_ldVKey (nibble x)
  | ldDtV x => exact decodeWord_ldDtV (nibble x)
  | ldStV x => exact decodeWord_ldStV (nibble x)
  | addIV x => exact decodeWord_addIV (nibble x)
  | ldFV x => exact decodeWord_ldFV (nibble x)
  | ldBV x => exact decodeWord_ldBV (nibble x)
  | ldMiV x => exact decodeWord_ldMiV (nibble x)
  | ldVMi x => exact decodeWord_ldVMi (nibble x)

/-- The first two bytes are decoded and the others are handed on. -/
theorem decodeBytes_of_ok {w : Word} {i : Instr} (h : decodeWord w = .ok i) (rest : List Byte) :
    decodeBytes (highByte w :: lowByte w :: rest) = .ok (i, rest) := by
  simp only [decodeBytes, wordOfBytes_bytes, h]

theorem tableWord_toNat (w : Word) : tableWord 16 w.toNat = w := by
  simp [tableWord, Nat.mod_eq_of_lt w.isLt]

/-- Settles O2: the word is `decodeWord_encode`, and bytes and the table's numbering make the same word again. -/
theorem decodeOfEncode : Obligations.DecodeOfEncode := by
  refine fun i => ⟨decodeWord_encode i, decodeBytes_of_ok (decodeWord_encode i), ?_⟩
  simp only [decodeTableWord, tableWord_toNat, decodeBytes_of_ok (decodeWord_encode i)]

/-! ## Words by their fields -/

theorem eq_wordNnn {op : Word} {p : BitVec 4} (hp : fieldPrimary op = p) : op = wordNnn p (fieldNnn op) := by
  subst hp; unfold wordNnn fieldPrimary fieldNnn; ext i hi; simp; grind

theorem eq_wordXkk {op : Word} {p : BitVec 4} {kk : Byte} (hp : fieldPrimary op = p) (hk : fieldKk op = kk) :
    op = wordXkk p (fieldX op) kk := by
  subst hp hk
  show op = op.extractLsb' 12 4 ++ op.extractLsb' 8 4 ++ op.extractLsb' 0 8
  ext i hi; simp; grind

theorem eq_wordXyn {op : Word} {p k : BitVec 4} (hp : fieldPrimary op = p) (hk : fieldKey op = k) :
    op = wordXyn p (fieldX op) (fieldY op) k := by
  subst hp hk; exact word_eq_nibbles op

/-- A register number is its nibble. -/
theorem fieldX_eq_iff {a b : Word} : fieldX a = fieldX b ↔ a.extractLsb' 8 4 = b.extractLsb' 8 4 :=
  ⟨BitVec.eq_of_toFin_eq, congrArg _⟩

theorem fieldY_eq_iff {a b : Word} : fieldY a = fieldY b ↔ a.extractLsb' 4 4 = b.extractLsb' 4 4 :=
  ⟨BitVec.eq_of_toFin_eq, congrArg _⟩

/-! ## What agreement outside the ignored bits means, field by field -/

/-- Bits 11 to 4 ignored: the primary nibble and the key count. -/
theorem masked_middleByte_iff (a b : Word) :
    a &&& ~~~0x0FF0#16 = b &&& ~~~0x0FF0#16 ↔ fieldPrimary a = fieldPrimary b ∧ fieldKey a = fieldKey b := by
  refine ⟨fun h => ⟨field_eq_of_masked_eq 12 4 h rfl, field_eq_of_masked_eq 0 4 h rfl⟩, fun ⟨hp, hk⟩ => ?_⟩
  exact masked_eq_of_nibbles (congrArg (· &&& _) hp) (BitVec.and_zero.trans BitVec.and_zero.symm)
    (BitVec.and_zero.trans BitVec.and_zero.symm) (congrArg (· &&& _) hk)

/-- Bits 3 to 0 ignored: the primary nibble and both registers count. -/
theorem masked_lastNibble_iff (a b : Word) :
    a &&& ~~~0x000F#16 = b &&& ~~~0x000F#16 ↔
      fieldPrimary a = fieldPrimary b ∧ fieldX a = fieldX b ∧ fieldY a = fieldY b := by
  rw [fieldX_eq_iff, fieldY_eq_iff]
  refine ⟨fun h => ⟨field_eq_of_masked_eq 12 4 h rfl, field_eq_of_masked_eq 8 4 h rfl, field_eq_of_masked_eq 4 4 h rfl⟩,
    fun ⟨hp, hx, hy⟩ => ?_⟩
  exact masked_eq_of_nibbles (congrArg (· &&& _) hp) (congrArg (· &&& _) hx) (congrArg (· &&& _) hy)
    (BitVec.and_zero.trans BitVec.and_zero.symm)

/-- Bits 7 to 4 ignored: the primary nibble, x and the key count. -/
theorem masked_thirdNibble_iff (a b : Word) :
    a &&& ~~~0x00F0#16 = b &&& ~~~0x00F0#16 ↔
      fieldPrimary a = fieldPrimary b ∧ fieldX a = fieldX b ∧ fieldKey a = fieldKey b := by
  rw [fieldX_eq_iff]
  refine ⟨fun h => ⟨field_eq_of_masked_eq 12 4 h rfl, field_eq_of_masked_eq 8 4 h rfl, field_eq_of_masked_eq 0 4 h rfl⟩,
    fun ⟨hp, hx, hk⟩ => ?_⟩
  exact masked_eq_of_nibbles (congrArg (· &&& _) hp) (congrArg (· &&& _) hx)
    (BitVec.and_zero.trans BitVec.and_zero.symm) (congrArg (· &&& _) hk)

/-! ## The words that decode to an instruction -/

/-- The word agrees with the canonical word of the instruction outside the bits ignored for it (R301). -/
def Matches (op : Word) (i : Instr) : Prop := op &&& ~~~ignoredBits i = encode i &&& ~~~ignoredBits i

theorem matches_of_eq_encode {op : Word} {i : Instr} (h : op = encode i) : Matches op i :=
  congrArg (· &&& ~~~ignoredBits i) h

theorem matches_of_decodeFamily0 {op : Word} {i : Instr} (hp : fieldPrimary op = 0x0#4)
    (h : decodeFamily0 op = .ok i) : Matches op i := by
  unfold decodeFamily0 at h
  split at h <;> cases h <;> exact (masked_middleByte_iff op _).2 ⟨hp, ‹_›⟩

theorem matches_of_decodeFamily8 {op : Word} {i : Instr} (hp : fieldPrimary op = 0x8#4)
    (h : decodeFamily8 op = .ok i) : Matches op i := by
  unfold decodeFamily8 at h
  split at h <;> cases h <;> exact matches_of_eq_encode (eq_wordXyn hp ‹_›)

theorem matches_of_decodeFamilyE {op : Word} {i : Instr} (hp : fieldPrimary op = 0xE#4)
    (h : decodeFamilyE op = .ok i) : Matches op i := by
  unfold decodeFamilyE at h
  split at h
  case h_1 hk | h_2 hk =>
    cases h
    exact (masked_thirdNibble_iff op _).2 (by simp [encode, wordXkk, hp, hk])
  case h_3 => cases h

theorem matches_of_decodeFamilyF {op : Word} {i : Instr} (hp : fieldPrimary op = 0xF#4)
    (h : decodeFamilyF op = .ok i) : Matches op i := by
  unfold decodeFamilyF at h
  split at h <;> cases h <;> exact matches_of_eq_encode (eq_wordXkk hp ‹_›)

theorem matches_of_decodeWord {op : Word} {i : Instr} (h : decodeWord op = .ok i) : Matches op i := by
  unfold decodeWord at h
  split at h
  case h_1 hp => exact matches_of_decodeFamily0 hp h
  case h_9 hp => exact matches_of_decodeFamily8 hp h
  case h_15 hp => exact matches_of_decodeFamilyE hp h
  case h_16 hp => exact matches_of_decodeFamilyF hp h
  case h_17 => cases h
  case h_6 hp | h_10 hp => cases h; exact (masked_lastNibble_iff op _).2 (by simp [encode, wordXyn, hp])
  case h_2 hp | h_3 hp | h_11 hp | h_12 hp => cases h; exact matches_of_eq_encode (eq_wordNnn hp)
  case h_4 hp | h_5 hp | h_7 hp | h_8 hp | h_13 hp => cases h; exact matches_of_eq_encode (eq_wordXkk hp rfl)
  case h_14 hp => cases h; exact matches_of_eq_encode (eq_wordXyn hp rfl)

/-- Where no bit is ignored, only the canonical word matches. -/
theorem eq_encode_of_matches {op : Word} {i : Instr} (hi : ignoredBits i = 0x0000#16) (h : Matches op i) :
    op = encode i := by
  have hmask : ~~~ignoredBits i = BitVec.allOnes 16 := by rw [hi]; rfl
  rwa [Matches, hmask, BitVec.and_allOnes, BitVec.and_allOnes] at h

theorem decodeWord_of_matches {op : Word} {i : Instr} (h : Matches op i) : decodeWord op = .ok i := by
  cases i with
  | cls | ret =>
    obtain ⟨hp, hk⟩ := (masked_middleByte_iff op _).1 h
    simp only [decodeWord, decodeFamily0, hp, hk]
    rfl
  | seVV x y | sneVV x y =>
    obtain ⟨hp, hx, hy⟩ := (masked_lastNibble_iff op _).1 h
    simp [decodeWord, hp, hx, hy, encode, wordXyn]
  | skp x | sknp x =>
    obtain ⟨hp, hx, hk⟩ := (masked_thirdNibble_iff op _).1 h
    simp [decodeWord, decodeFamilyE, hp, hx, hk, encode, wordXkk]
  | _ => rw [eq_encode_of_matches rfl h, decodeWord_encode]

/-- Settles O3: `matches_of_decodeWord` reads the fields off the decoder's branch, `decodeWord_of_matches` puts them back. -/
theorem decodesExactlyTheMatchingWords : Obligations.DecodesExactlyTheMatchingWords :=
  fun _ _ => ⟨matches_of_decodeWord, decodeWord_of_matches⟩

/-! ## The words that are no instruction -/

theorem fieldPrimary_toNat (op : Word) : (fieldPrimary op).toNat = op.toNat / 4096 := by
  have := op.isLt
  simp only [fieldPrimary, BitVec.extractLsb'_toNat, Nat.shiftRight_eq_div_pow]
  omega

theorem fieldKey_toNat (op : Word) : (fieldKey op).toNat = op.toNat % 16 := by
  simp [fieldKey, BitVec.extractLsb'_toNat]

theorem fieldKk_toNat (op : Word) : (fieldKk op).toNat = op.toNat % 256 := by
  simp [fieldKk, BitVec.extractLsb'_toNat]

/-- The reason a word is refused is always the same (R311, R317). -/
theorem decodeWord_error {op : Word} {e : DecodeError} (h : decodeWord op = .error e) : e = .unknownOpcode := by
  cases e with
  | unknownOpcode => rfl
  | truncated =>
    unfold decodeWord decodeFamily0 decodeFamily8 decodeFamilyE decodeFamilyF at h
    repeat' split at h
    all_goals cases h

theorem decodeFamily0_eq_error (op : Word) :
    decodeFamily0 op = .error .unknownOpcode ↔ (fieldKey op).toNat ∉ [0x0, 0xE] := by
  unfold decodeFamily0
  split <;> simp_all [BitVec.toNat_eq]

theorem decodeFamily8_eq_error (op : Word) : decodeFamily8 op = .error .unknownOpcode ↔
    (fieldKey op).toNat ∈ [0x8, 0x9, 0xA, 0xB, 0xC, 0xD, 0xF] := by
  unfold decodeFamily8
  split <;> simp_all [BitVec.toNat_eq]
  omega

theorem decodeFamilyE_eq_error (op : Word) :
    decodeFamilyE op = .error .unknownOpcode ↔ (fieldKey op).toNat ∉ [0x1, 0xE] := by
  unfold decodeFamilyE
  split <;> simp_all [BitVec.toNat_eq]

theorem decodeFamilyF_eq_error (op : Word) : decodeFamilyF op = .error .unknownOpcode ↔
    (fieldKk op).toNat ∉ [0x07, 0x0A, 0x15, 0x18, 0x1E, 0x29, 0x33, 0x55, 0x65] := by
  unfold decodeFamilyF
  split <;> simp_all [BitVec.toNat_eq]

/-- Settles O5: the four families refuse by `decodeFamily0_eq_error` and its like; every other primary nibble decodes,
whatever the fields are. -/
theorem unknownWordsExactly : Obligations.UnknownWordsExactly := by
  refine fun op => ⟨?_, fun h => by cases decodeWord_error h⟩
  rw [← fieldPrimary_toNat, ← fieldKey_toNat, ← fieldKk_toNat, ← decodeFamily0_eq_error, ← decodeFamily8_eq_error,
    ← decodeFamilyE_eq_error, ← decodeFamilyF_eq_error]
  unfold decodeWord
  split
  case h_17 => simp only [imp_false] at *; bv_omega
  all_goals simp [‹fieldPrimary op = _›]

end Sys2Proof
end

section
/-! Everything the execute phase and a step can do. An instruction either keeps the frame its rows of the access matrix
give it (10_state.md R118) or raises a fault in that fault's context (60_exceptions.md R702); a step of a running core
latches a fault that describes the state or ends the cycle of one such instruction. The invariants follow from that. -/

namespace Sys2Proof.Machine

/-! ## The two answers of an instruction -/

/-- Memory is as it was, or holds the bytes the instruction stores from I up, all checked. -/
def KeepsMemory (i : Instr) (s t : State) : Prop :=
  t.mem = s.mem ∨ ∃ bs, bs.length = storedBytes i ∧ writeFault s.i.toNat bs.length = none ∧
    t.mem = s.mem.writeBytes s.i.toNat bs

/-- The W columns of the access matrix (10_state.md R118) between the states before and after an effect. -/
structure KeepsFrame (i : Instr) (s t : State) : Prop where
  reg : ∀ r, writesReg i r = false → t.reg r = s.reg r
  index : (∀ nnn x, i ≠ .ldI nnn ∧ i ≠ .addIV x ∧ i ≠ .ldFV x) → t.i = s.i
  pc : writesPc i = false → t.pc = s.pc
  stack : (∀ nnn, i ≠ .ret ∧ i ≠ .call nnn) → t.sp = s.sp ∧ t.stack = s.stack
  dt : (∀ x, i ≠ .ldDtV x) → t.dt = s.dt
  st : (∀ x, i ≠ .ldStV x) → t.st = s.st
  fb : (∀ x y n, i ≠ .cls ∧ i ≠ .drw x y n) → t.fb = s.fb
  draws : (∀ x kk, i ≠ .rnd x kk) → t.draws = s.draws
  key : t.key = s.key
  halt : t.halt = s.halt
  mem : KeepsMemory i s t

/-- What holds of an instruction and the state it runs in when it raises a fault with this address or index
(60_exceptions.md R702, R709 to R714). -/
def FaultContext (i : Instr) (s : State) : FaultCode → Option Nat → Prop
  | .unknownOpcode, _ => False
  | .stackOverflow, a => a = none ∧ s.sp = 16 ∧ ∃ nnn, i = .call nnn
  | .stackUnderflow, a => a = none ∧ s.sp = 0 ∧ i = .ret
  | .memoryOutOfRange, a => ∃ n, a = some n ∧ 4096 ≤ n ∧ n < 2 ^ 17
  | .keyIndexOutOfRange, a => ∃ n, a = some n ∧ 15 < n ∧ n < 256
  | .protectedWrite, a => ∃ n, a = some n ∧ 0x050 ≤ n ∧ n ≤ 0x09F

/-- The answer is an effect in the instruction's frame, or a fault in its context. -/
def Answers (i : Instr) (s : State) (o : Result) : Prop :=
  (∃ t, o = .next t ∧ KeepsFrame i s t) ∨ ∃ c a, o = raise s c a ∧ FaultContext i s c a

section
variable {i : Instr} {s t : State}

theorem answers_next (h : KeepsFrame i s t) : Answers i s (.next t) := .inl ⟨t, rfl, h⟩

theorem answers_raise {c : FaultCode} {a : Option Nat} (h : FaultContext i s c a) : Answers i s (raise s c a) :=
  .inr ⟨c, a, rfl, h⟩

/-! ## Frames of the shared updates -/

theorem KeepsFrame.refl (i : Instr) (s : State) : KeepsFrame i s s where
  reg _ _ := rfl
  index _ := rfl
  pc _ := rfl
  stack _ := ⟨rfl, rfl⟩
  dt _ := rfl
  st _ := rfl
  fb _ := rfl
  draws _ := rfl
  key := rfl
  halt := rfl
  mem := .inl rfl

/-- A register outside the written ones is none of them. -/
theorem ne_of_writesReg {r x : Reg} (hx : writesReg i x = true) (hr : writesReg i r = false) : r ≠ x := by
  rintro rfl
  simp [hx] at hr

theorem keepsFrame_setReg {x : Reg} (b : Byte) (hx : writesReg i x = true) : KeepsFrame i s (s.setReg x b) :=
  { KeepsFrame.refl i s with
    reg := fun r hr => by rw [State.reg_setReg, if_neg (ne_of_writesReg hx hr)] }

theorem keepsFrame_setRegFlag {x : Reg} (b : Byte) (f : Bool) (hx : writesReg i x = true)
    (hf : writesReg i 15 = true) : KeepsFrame i s (s.setRegFlag x b f) :=
  { KeepsFrame.refl i s with
    reg := fun r hr => by
      rw [State.reg_setRegFlag, if_neg (ne_of_writesReg hf hr), if_neg (ne_of_writesReg hx hr)] }

theorem keepsFrame_setPc (w : Word) (h : writesPc i = true) : KeepsFrame i s (s.setPc w) :=
  { KeepsFrame.refl i s with pc := fun hpc => by simp [h] at hpc }

theorem keepsFrame_skipIf (c : Bool) (h : writesPc i = true) : KeepsFrame i s (s.skipIf c) := by
  cases c with
  | false => exact KeepsFrame.refl i s
  | true => exact keepsFrame_setPc _ h

theorem keepsFrame_storeAtI {bs : List Byte} (hlen : bs.length = storedBytes i)
    (hok : writeFault s.i.toNat (storedBytes i) = none) : KeepsFrame i s (s.storeAtI bs) :=
  { KeepsFrame.refl i s with mem := .inr ⟨bs, hlen, hlen ▸ hok, rfl⟩ }

/-! ## The shared checks -/

theorem readFault_context {base n a : Nat} {c : FaultCode} (hb : base + n < 2 ^ 17)
    (h : readFault base n = some (c, a)) : FaultContext i s c (some a) := by
  rw [readFault_eq] at h
  split at h
  · cases h
    exact ⟨_, rfl, by omega, by omega⟩
  · cases h

theorem writeFault_context {base n a : Nat} {c : FaultCode} (hb : base + n < 2 ^ 17)
    (h : writeFault base n = some (c, a)) : FaultContext i s c (some a) := by
  obtain ⟨hn, hout, rfl, rfl⟩ | ⟨-, rfl, hbad⟩ := (writeFault_eq_some base n a c).1 h
  · exact ⟨_, rfl, by omega, by omega⟩
  · obtain ⟨-, -, hfont, -⟩ := (firstBad_eq_some inFont base n a).1 hbad
    obtain ⟨hlo, hhi⟩ := (inFont_eq_true a).1 hfont
    exact ⟨a, rfl, hlo, hhi⟩

/-- A checked access answers when its check names a fault in context and its effect, behind the check, keeps the frame. -/
theorem answers_unlessFault {f : Option (FaultCode × Nat)} (hfault : ∀ c a, f = some (c, a) → FaultContext i s c (some a))
    (heffect : f = none → KeepsFrame i s t) : Answers i s (unlessFault f s t) := by
  cases f with
  | none => exact answers_next (heffect rfl)
  | some ca => exact answers_raise (hfault ca.1 ca.2 rfl)

theorem keyIndex_eq_none {v : Byte} (h : keyIndex v = none) : 15 < v.toNat := by
  by_contra hlt
  rw [keyIndex_of_lt v ⟨v.toNat, by omega⟩ rfl] at h
  cases h

theorem answers_skipOnKey (x : Reg) (pressed : Bool) (h : writesPc i = true) :
    Answers i s (skipOnKey x pressed s) := by
  unfold skipOnKey
  split
  · exact answers_raise ⟨_, rfl, keyIndex_eq_none ‹_›, (s.reg x).isLt⟩
  · exact answers_next (keepsFrame_skipIf _ h)

/-- A block of at most sixteen bytes from I up ends inside the 17 bits of the record's address (10_state.md R114). -/
theorem index_add_block_lt (s : State) {n : Nat} (hn : n ≤ 16) : s.i.toNat + n < 2 ^ 17 := by
  have := s.i.isLt
  omega

theorem blockCount_le (x : Reg) : blockCount x ≤ 16 := x.isLt

theorem State.length_firstRegs_blockCount (s : State) (x : Reg) :
    (s.firstRegs (blockCount x)).length = x.val + 1 := by
  rw [State.length_firstRegs]
  exact min_eq_left (blockCount_le x)

theorem answers_store {bs : List Byte} (hlen : bs.length = storedBytes i) (hn : storedBytes i ≤ 16) :
    Answers i s (unlessFault (writeFault s.i.toNat (storedBytes i)) s (s.storeAtI bs)) :=
  answers_unlessFault (fun _ _ => writeFault_context (index_add_block_lt s hn)) (keepsFrame_storeAtI hlen)

/-! ## Every instruction -/

theorem exec_answers (i : Instr) (s : State) : Answers i s (exec i s) := by
  cases i with
  | cls => exact answers_next { KeepsFrame.refl .cls s with fb := fun h => absurd rfl (h 0 0 0).1 }
  | ret =>
    by_cases h : s.sp = 0
    · rw [exec_ret_of_empty s h]
      exact answers_raise ⟨rfl, h, rfl⟩
    · rw [exec, execRet, if_neg h]
      exact answers_next { KeepsFrame.refl .ret s with
        pc := nofun
        stack := fun h => absurd rfl (h 0).1 }
  | call nnn =>
    by_cases h : s.sp = 16
    · rw [exec_call_of_full nnn s h]
      exact answers_raise ⟨rfl, h, nnn, rfl⟩
    · rw [exec, execCall, if_neg h]
      exact answers_next { KeepsFrame.refl (.call nnn) s with
        pc := nofun
        stack := fun h => absurd rfl (h nnn).2 }
  | jp | jpV0 => exact answers_next (keepsFrame_setPc _ rfl)
  | seVkk | sneVkk | seVV | sneVV => exact answers_next (keepsFrame_skipIf _ rfl)
  | skp x => exact answers_skipOnKey x true rfl
  | sknp x => exact answers_skipOnKey x false rfl
  | ldVkk x | addVkk x | ldVV x | or x | and x | xor x | ldVDt x =>
    exact answers_next (keepsFrame_setReg _ (beq_self_eq_true x))
  | addVV x y | sub x y | shr x y | subn x y | shl x y =>
    exact answers_next (keepsFrame_setRegFlag _ _ (by simp [writesReg]) (by simp [writesReg, vf]))
  | rnd x kk =>
    exact answers_next { keepsFrame_setReg (i := .rnd x kk) (s := s) _ (beq_self_eq_true x) with
      draws := fun h => absurd rfl (h x kk) }
  | ldVKey x =>
    rw [exec, execLdVKey]
    split
    · exact answers_next (keepsFrame_setReg _ (beq_self_eq_true x))
    · exact answers_next (keepsFrame_setPc _ rfl)
  | ldDtV x => exact answers_next { KeepsFrame.refl (.ldDtV x) s with dt := fun h => absurd rfl (h x) }
  | ldStV x => exact answers_next { KeepsFrame.refl (.ldStV x) s with st := fun h => absurd rfl (h x) }
  | ldI nnn => exact answers_next { KeepsFrame.refl (.ldI nnn) s with index := fun h => absurd rfl (h nnn 0).1 }
  | addIV x => exact answers_next { KeepsFrame.refl (.addIV x) s with index := fun h => absurd rfl (h 0 x).2.1 }
  | ldFV x => exact answers_next { KeepsFrame.refl (.ldFV x) s with index := fun h => absurd rfl (h 0 x).2.2 }
  | drw x y n =>
    refine answers_unlessFault (fun _ _ => readFault_context (index_add_block_lt s (by omega))) fun _ => ?_
    exact { keepsFrame_setReg (i := .drw x y n) (s := s) _ (beq_self_eq_true vf) with
      fb := fun h => absurd rfl (h x y n).2 }
  | ldBV x => exact answers_store (i := .ldBV x) rfl (by decide : 3 ≤ 16)
  | ldMiV x => exact answers_store (i := .ldMiV x) (s.length_firstRegs_blockCount x) (blockCount_le x)
  | ldVMi x =>
    refine answers_unlessFault (fun _ _ => readFault_context (index_add_block_lt s (blockCount_le x))) fun _ => ?_
    refine { KeepsFrame.refl (.ldVMi x) s with reg := fun r hr => ?_ }
    rw [State.reg_loadFromI, if_neg]
    exact fun hlt => of_decide_eq_false hr (Fin.le_def.2 (Nat.le_of_lt_succ hlt))

end

/-! ## What an answer says of the next state -/

theorem raise_halt_ne_none {s t : State} {c : FaultCode} {a : Option Nat} (h : raise s c a = .next t) :
    t.halt ≠ none := by
  cases h
  exact Option.some_ne_none _

/-- An execution that does not fault kept its frame. -/
theorem keepsFrame_of_running {i : Instr} {s t : State} (h : exec i s = .next t) (ht : t.halt = none) :
    KeepsFrame i s t := by
  obtain ⟨u, hu, hframe⟩ | ⟨c, a, hraise, -⟩ := exec_answers i s
  · rw [h] at hu; cases hu
    exact hframe
  · exact absurd ht (raise_halt_ne_none (hraise.symm.trans h))

/-- The bytes outside those the instruction stores read as before. -/
theorem KeepsMemory.read_outside {i : Instr} {s t : State} (h : KeepsMemory i s t) {a : Nat}
    (ha : a < s.i.toNat ∨ s.i.toNat + storedBytes i ≤ a) : t.mem.read a = s.mem.read a := by
  obtain hsame | ⟨bs, hlen, -, hmem⟩ := h
  · rw [hsame]
  · rw [hmem, Memory.read_writeBytes_outside _ _ _ _ (hlen ▸ ha)]

/-- No store reaches the font table (20_memory.md R204). -/
theorem KeepsMemory.read_font {i : Instr} {s t : State} (h : KeepsMemory i s t) {a : Nat} (hlo : 0x050 ≤ a)
    (hhi : a ≤ 0x09F) : t.mem.read a = s.mem.read a := by
  obtain hsame | ⟨bs, -, hok, hmem⟩ := h
  · rw [hsame]
  · have hfont := ((writeFault_eq_none _ _).1 hok).2
    rw [hmem, Memory.read_writeBytes_outside]
    by_contra hin
    refine hfont (a - s.i.toNat) (by omega) ?_
    rw [Nat.add_sub_of_le (by omega)]
    exact ⟨hlo, hhi⟩

theorem KeepsMemory.wf {i : Instr} {s t : State} (h : KeepsMemory i s t) (hs : s.mem.wf) : t.mem.wf := by
  obtain hsame | ⟨bs, -, hok, hmem⟩ := h
  · rwa [hsame]
  · rw [hmem]
    obtain hempty | hin := ((writeFault_eq_none _ _).1 hok).1
    · rwa [List.length_eq_zero_iff.1 hempty]
    · exact Memory.wf_writeBytes _ _ _ hin hs

/-- Settles O20: an execution that does not fault is the first answer of `exec_answers`. -/
theorem everyInstructionKeepsItsFrame : Obligations.EveryInstructionKeepsItsFrame := by
  intro i s t hexec _ ht
  have h := keepsFrame_of_running hexec ht
  exact ⟨h.reg, h.index, h.pc, h.stack, h.dt, h.st, h.fb, h.draws, h.key, fun _ => h.mem.read_outside⟩

/-! ## Every step -/

theorem exec_next (i : Instr) (s : State) : ∃ t, exec i s = .next t := by
  obtain ⟨t, ht, -⟩ | ⟨c, a, hraise, -⟩ := exec_answers i s
  · exact ⟨t, ht⟩
  · exact ⟨_, hraise⟩

theorem step_of_halted (s : State) (h : s.halt ≠ none) : step s = .next s := by
  obtain ⟨r, hr⟩ := Option.ne_none_iff_exists'.1 h
  simp only [step, hr]

theorem step_next (s : State) : ∃ t, step s = .next t := by
  by_cases hrun : s.halt = none
  · by_cases hpc : s.pc.toNat + 1 < 4096
    · cases hdec : decodeWord (s.mem.read s.pc.toNat ++ s.mem.read (s.pc.toNat + 1)) with
      | error e => exact ⟨_, step_of_undecodable s e hrun hpc hdec⟩
      | ok i =>
        obtain ⟨u, hu⟩ := exec_next i s.advance
        exact ⟨u.endCycle, by rw [step_of_decoded s i hrun hpc hdec, hu, finish]⟩
    · exact ⟨_, step_of_unfetchable s hrun (by omega)⟩
  · exact ⟨s, step_of_halted s hrun⟩

/-- Settles O7: both answers of `exec_answers` are next states, and so is every branch of the cycle. -/
theorem everyStepAnswersANextState : Obligations.EveryStepAnswersANextState :=
  ⟨step_next, exec_next⟩

/-- Settles O8, by induction on the number of steps. -/
theorem haltedCoreIsStuck : Obligations.HaltedCoreIsStuck := by
  intro s r n hr
  have hstep : step s = .next s := step_of_halted s (by simp [hr])
  refine ⟨hstep, ?_⟩
  induction n with
  | zero => rfl
  | succ n ih =>
    have hcore : Sys2Proof.core.step s = .next s := hstep
    simp only [Host.Core.run, hcore]
    exact ih

/-- Settles O6: `step_of_decoded`, with the end of the cycle written out. -/
theorem stepRunsTheDecodedInstruction : Obligations.StepRunsTheDecodedInstruction := by
  intro s i hrun hpc hdec
  have hadv : ({ s with pc := s.pc + 2#16 } : State) = s.advance := rfl
  rw [step_of_decoded s i hrun hpc hdec, hadv]
  cases exec i s.advance with
  | next t => rfl
  | fault f => rfl
  | refused r => rfl

/-! ## The latch describes the state -/

theorem State.latchDescribes_of_running {s : State} (h : s.halt = none) : s.latchDescribes := by
  intro r hr
  simp [h] at hr

theorem State.fetched_of_fetch {s : State} {op : Word} (h : s.fetch = .ok op) : s.fetched = some op := by
  simp only [State.fetched, h]

theorem State.latchDescribes_fetchFault (s : State) (h : 4096 ≤ s.pc.toNat + 1) :
    (s.latch .memoryOutOfRange (some (max s.pc.toNat 4096))).latchDescribes := by
  intro r hr
  obtain rfl := Option.some.inj hr
  have hpc := s.pc.isLt
  refine ⟨rfl, ⟨_, rfl, ?_⟩, ?_⟩
  · rw [BitVec.toNat_ofNat, Nat.mod_eq_of_lt (by omega)]
    omega
  · simp [s.fetched_of_unfetchable h, h]

theorem State.latchDescribes_unknownOpcode {s : State} {op : Word} {e : DecodeError} (hop : s.fetched = some op)
    (hdec : decodeWord op = .error e) : (s.latch .unknownOpcode none).latchDescribes := by
  intro r hr
  obtain rfl := Option.some.inj hr
  exact ⟨rfl, rfl, op, hop, decodeWord_error hdec ▸ hdec⟩

/-- A fault of the execute phase in its context latches a record that describes the state at the start of the cycle. -/
theorem State.latchDescribes_of_context {s : State} {op : Word} {i : Instr} {c : FaultCode} {a : Option Nat}
    (hpc : s.pc.toNat + 1 < 4096) (hop : s.fetched = some op) (hdec : decodeWord op = .ok i)
    (h : FaultContext i s c a) : (s.latch c a).latchDescribes := by
  intro r hr
  obtain rfl := Option.some.inj hr
  have hfetched : s.fetched ≠ none := by simp [hop]
  refine ⟨rfl, ?_⟩
  cases c with
  | unknownOpcode => exact h.elim
  | stackOverflow =>
    obtain ⟨rfl, hsp, nnn, rfl⟩ := h
    exact ⟨rfl, hsp, op, nnn, hop, hdec⟩
  | stackUnderflow =>
    obtain ⟨rfl, hsp, rfl⟩ := h
    exact ⟨rfl, hsp, op, hop, hdec⟩
  | memoryOutOfRange =>
    obtain ⟨n, rfl, hlo, hhi⟩ := h
    refine ⟨⟨_, rfl, ?_⟩, iff_of_false hfetched (Nat.not_le_of_lt hpc)⟩
    rwa [BitVec.toNat_ofNat, Nat.mod_eq_of_lt hhi]
  | keyIndexOutOfRange =>
    obtain ⟨n, rfl, hlo, hhi⟩ := h
    refine ⟨⟨_, rfl, ?_⟩, hfetched⟩
    rw [BitVec.toNat_ofNat, Nat.mod_eq_of_lt (by omega)]
    exact ⟨hlo, hhi⟩
  | protectedWrite =>
    obtain ⟨n, rfl, hlo, hhi⟩ := h
    refine ⟨⟨_, rfl, ?_⟩, hfetched⟩
    rw [BitVec.toNat_ofNat, Nat.mod_eq_of_lt (by omega)]
    exact ⟨hlo, hhi⟩

/-- A step of a running core latches a fault that describes the state, or is the cycle of one instruction in its frame,
with the tick at its end. -/
theorem step_of_running {s t : State} (hrun : s.halt = none) (h : step s = .next t) :
    (∃ c a, t = s.latch c a ∧ t.latchDescribes) ∨
    ∃ i u, decodeWord (s.mem.read s.pc.toNat ++ s.mem.read (s.pc.toNat + 1)) = .ok i ∧
      KeepsFrame i s.advance u ∧ t = u.tick := by
  obtain ⟨hhalt, -⟩ | ⟨-, hpc, rfl⟩ | ⟨-, -, op, e, hop, hdec, rfl⟩ | ⟨-, hpc, op, i, u, hop, hdec, hexec, rfl⟩ :=
    step_cases h
  · exact absurd hrun hhalt
  · exact .inl ⟨_, _, rfl, s.latchDescribes_fetchFault hpc⟩
  · exact .inl ⟨_, _, rfl, State.latchDescribes_unknownOpcode (State.fetched_of_fetch hop) hdec⟩
  · obtain ⟨u', hu', hframe⟩ | ⟨c, a, hraise, hctx⟩ := exec_answers i s.advance
    · rw [hexec] at hu'; cases hu'
      rw [s.fetch_ok hpc] at hop; cases hop
      exact .inr ⟨i, u, hdec, hframe, u.endCycle_of_running (hframe.halt.trans hrun)⟩
    · rw [hexec, raise_advance] at hraise; cases hraise
      exact .inl ⟨c, a, State.endCycle_latch s c a,
        State.latchDescribes_of_context hpc (State.fetched_of_fetch hop) hdec hctx⟩

/-- Settles O9: of the two outcomes of `step_of_running` only the latch leaves a record. -/
theorem faultsArePrecise : Obligations.FaultsArePrecise := by
  intro s t hrun hstep ht
  obtain ⟨c, a, rfl, -⟩ | ⟨i, u, -, hframe, rfl⟩ := step_of_running hrun hstep
  · exact ⟨_, rfl, rfl, s.fetched_eq⟩
  · exact absurd (hframe.halt.trans hrun) ht

/-- A step keeps memory as one instruction does, or leaves it alone. -/
theorem step_keepsMemory {s t : State} (h : step s = .next t) : t.mem = s.mem ∨ ∃ i, KeepsMemory i s t := by
  by_cases hrun : s.halt = none
  · obtain ⟨c, a, rfl, -⟩ | ⟨i, u, -, hframe, rfl⟩ := step_of_running hrun h
    · exact .inl rfl
    · exact .inr ⟨i, hframe.mem⟩
  · rw [step_of_halted s hrun] at h; cases h
    exact .inl rfl

/-- Settles O15: the bytes a step stores were checked to be memory. -/
theorem stepKeepsMemoryCanonical : Obligations.StepKeepsMemoryCanonical := by
  intro s t hs hstep
  obtain hsame | ⟨i, hmem⟩ := step_keepsMemory hstep
  · rwa [hsame]
  · exact hmem.wf hs

/-- Settles O17: the bytes a step stores were checked to be outside the font table. -/
theorem fontIsNeverOverwritten : Obligations.FontIsNeverOverwritten := by
  intro s t a hstep hlo hhi
  obtain hsame | ⟨i, hmem⟩ := step_keepsMemory hstep
  · rw [hsame]
  · exact hmem.read_font hlo hhi

/-- Settles O18: a halted core stays as it is, a fault latches a true record, and any other cycle leaves the latch empty. -/
theorem stepKeepsTheLatchTrue : Obligations.StepKeepsTheLatchTrue := by
  intro s t hs hstep
  by_cases hrun : s.halt = none
  · obtain ⟨c, a, -, ht⟩ | ⟨i, u, -, hframe, rfl⟩ := step_of_running hrun hstep
    · exact ht
    · exact State.latchDescribes_of_running (hframe.halt.trans hrun)
  · rw [step_of_halted s hrun] at hstep; cases hstep
    exact hs

/-- Settles O24: the instruction leaves a timer it does not write, and `tickTimer_toNat` is the tick. -/
theorem timersCountDownOnceACycle : Obligations.TimersCountDownOnceACycle := by
  intro s t hrun hstep ht
  obtain ⟨c, a, rfl, -⟩ | ⟨i, u, hdec, hframe, rfl⟩ := step_of_running hrun hstep
  · exact absurd ht (Option.some_ne_none _)
  · refine ⟨fun hdt => ?_, fun hst => ?_⟩
    · have hu : u.dt = s.dt := hframe.dt fun x hi => hdt x (hi ▸ hdec)
      rw [← hu]
      exact tickTimer_toNat u.dt
    · have hu : u.st = s.st := hframe.st fun x hi => hst x (hi ▸ hdec)
      rw [← hu]
      exact tickTimer_toNat u.st

end Sys2Proof.Machine
end

section
/-! Reset and the host's ports (10_state.md R119, 60_exceptions.md R730 to R736): what each leaves, and that the
invariants hold in every state a host can bring the core to. -/

namespace Sys2Proof.Machine

/-! ## Reset -/

theorem fontIs_resetWith (font : Vector Byte 80) : (State.resetWith font).fontIs font := by
  intro k
  have hk : k.val < font.toList.length := by simp
  exact (Memory.read_writeBytes_inside [] 0x050 k.val font.toList hk).trans (Vector.getElem_toList hk)

theorem wf_resetWith (font : Vector Byte 80) : (State.resetWith font).mem.wf :=
  Memory.wf_writeBytes [] 0x050 font.toList (by simp) Memory.wf_nil

/-- Outside the font table the reset memory reads as zero (R119). -/
theorem read_resetWith_outside (font : Vector Byte 80) {a : Nat} (h : a < 0x050 ∨ 0x09F < a) :
    (State.resetWith font).mem.read a = 0x00#8 := by
  have hout : a < 0x050 ∨ 0x050 + font.toList.length ≤ a := by simp; omega
  have hfont : inFont a = false := (inFont_eq_false a).2 (by omega)
  calc (State.resetWith font).mem.read a
      = Memory.read [] a := Memory.read_writeBytes_outside [] 0x050 a font.toList hout
    _ = 0x00#8 := by simp [Memory.read, Memory.unlisted, hfont]

/-- Settles O16: both reset states run, so the latch is empty; the font is written where it is read back. -/
theorem resetMeetsTheInvariants : Obligations.ResetMeetsTheInvariants :=
  ⟨⟨Memory.wf_nil, State.latchDescribes_of_running rfl⟩, fun font =>
    ⟨wf_resetWith font, State.latchDescribes_of_running rfl, fontIs_resetWith font⟩⟩

/-- Settles O53: the font table by `fontIs_resetWith`, the other bytes by `read_resetWith_outside`, and every other piece
of state is a constant one. -/
theorem resetValues : Obligations.ResetValues := by
  intro font before
  refine ⟨fontIs_resetWith font, fun a => read_resetWith_outside font, fun r => Vector.getElem_replicate _, rfl, rfl, rfl,
    fun j => Vector.getElem_replicate _, rfl, rfl, Framebuffer.pixel_blank, fun k => Vector.getElem_replicate _, rfl⟩

/-- Settles O54: each byte of the table is what its address reads as unlisted, so writing it lists nothing. -/
theorem resetHasTheDefaultFont : Obligations.ResetHasTheDefaultFont := by
  unfold Obligations.ResetHasTheDefaultFont
  decide

/-! ## The load port -/

theorem portLoad_of_fits {image : List Byte} (h : image.length ≤ 3584) (s : State) :
    portLoad image s = .ok { s with mem := s.mem.writeBytes 0x200 image } := if_pos h

theorem portLoad_of_tooLarge {image : List Byte} (h : 3584 < image.length) (s : State) :
    portLoad image s = .error .programTooLarge := if_neg (Nat.not_le_of_lt h)

/-- Settles O55: an accepted image is read back by `Memory.read_writeBytes_inside`, and
`Memory.read_writeBytes_outside` keeps the rest. -/
theorem loadPortResult : Obligations.LoadPortResult := fun image s =>
  ⟨fun h => ⟨_, portLoad_of_fits h s, fun k => Memory.read_writeBytes_inside s.mem 0x200 k image,
    fun a => Memory.read_writeBytes_outside s.mem 0x200 a image, rfl⟩, fun h => portLoad_of_tooLarge h s⟩

/-! ## The keypad, pixel, sound and status ports -/

theorem portKeySet_of_lt {k : Nat} (h : k < 16) (b : Bool) (s : State) :
    portKeySet k b s = .ok { s with key := s.key.set k b } := dif_pos h

theorem portKeySet_of_ge {k : Nat} (h : 16 ≤ k) (b : Bool) (s : State) :
    portKeySet k b s = .error .hostIndexOutOfRange := dif_neg (Nat.not_lt_of_le h)

/-- Settles O56: each index check of a port is the statement's range. -/
theorem hostPortResults : Obligations.HostPortResults := by
  intro s k r c b
  refine ⟨fun hk => ?_, fun hk => portKeySet_of_ge hk b s, fun hr hc => dif_pos ⟨hr, hc⟩,
    fun h => dif_neg (by omega), ?_, rfl, rfl, rfl⟩
  · refine ⟨_, portKeySet_of_lt (Nat.lt_succ_of_le hk) b s, rfl, fun j => ?_⟩
    simp only [Vector.getElem_set, eq_comm]
  · simp [portSoundOn, BitVec.toNat_eq]

/-- The status shows every component but the draw count, so states of one status differ there alone. -/
theorem portStatus_eq_iff (s t : State) : portStatus s = portStatus t ↔ t = { s with draws := t.draws } := by
  constructor
  · intro h
    cases s; cases t
    simp_all [portStatus]
  · intro h
    rw [h]
    rfl

/-- Settles O57: the components by `portStatus_fields`, the code's number case by case, and `portStatus_eq_iff`. -/
theorem statusShowsTheWholeState : Obligations.StatusShowsTheWholeState := by
  intro s
  refine ⟨⟨fun _ => rfl, fun _ => rfl, rfl, rfl, rfl, fun _ => rfl, rfl, rfl, fun _ _ => rfl, fun _ => rfl, rfl⟩,
    fun h => ?_, fun r h => ?_, portStatus_eq_iff s⟩
  · simp [h]
  · refine ⟨r.code.number, by simp [h], ?_⟩
    cases r.code <;> rfl

/-! ## Every state a host can reach -/

/-- Memory canonical, the font table intact, the latch true. -/
def State.Sound (font : Vector Byte 80) (s : State) : Prop := s.mem.wf ∧ s.fontIs font ∧ s.latchDescribes

theorem sound_resetWith (font : Vector Byte 80) : (State.resetWith font).Sound font :=
  ⟨wf_resetWith font, fontIs_resetWith font, State.latchDescribes_of_running rfl⟩

theorem sound_of_step {font : Vector Byte 80} {s t : State} (hs : s.Sound font) (h : step s = .next t) :
    t.Sound font := by
  obtain ⟨hwf, hfont, hlatch⟩ := hs
  refine ⟨stepKeepsMemoryCanonical s t hwf h, fun k => ?_, stepKeepsTheLatchTrue s t hlatch h⟩
  rw [fontIsNeverOverwritten s t _ h (by omega) (by omega)]
  exact hfont k

theorem sound_of_load {font : Vector Byte 80} {s t : State} {image : List Byte} (hs : s.Sound font)
    (h : portLoad image s = .ok t) : t.Sound font := by
  obtain ⟨hwf, hfont, hlatch⟩ := hs
  by_cases hlen : image.length ≤ 3584
  · rw [portLoad_of_fits hlen] at h; cases h
    refine ⟨Memory.wf_writeBytes _ _ _ (by omega) hwf, fun k => ?_, hlatch⟩
    rw [← hfont k]
    exact Memory.read_writeBytes_outside _ _ _ _ (by omega)
  · rw [portLoad_of_tooLarge (Nat.lt_of_not_le hlen)] at h; cases h

theorem sound_of_keySet {font : Vector Byte 80} {s t : State} {k : Nat} {b : Bool} (hs : s.Sound font)
    (h : portKeySet k b s = .ok t) : t.Sound font := by
  obtain hk | hk := Nat.lt_or_ge k 16
  · rw [portKeySet_of_lt hk] at h; cases h
    exact hs
  · rw [portKeySet_of_ge hk] at h; cases h

theorem sound_act {font : Vector Byte 80} {s : State} (hs : s.Sound font) (a : HostAction) :
    (act font a s).Sound font := by
  cases a with
  | step =>
    obtain ⟨t, ht⟩ := step_next s
    simp only [act, ht]
    exact sound_of_step hs ht
  | reset => exact sound_resetWith font
  | load image =>
    cases h : portLoad image s with
    | ok t => simpa only [act, h] using sound_of_load hs h
    | error e => simpa only [act, h] using hs
  | keySet k b =>
    cases h : portKeySet k b s with
    | ok t => simpa only [act, h] using sound_of_keySet hs h
    | error e => simpa only [act, h] using hs

/-- Settles O19, by induction on the host's actions. -/
theorem reachableStatesAreSound : Obligations.ReachableStatesAreSound := by
  intro font s h
  induction h with
  | start => exact sound_resetWith font
  | after a s _ ih => exact sound_act ih a

end Sys2Proof.Machine
end

section
/-! Columns of the access matrix (10_state.md R118, R110): an instruction that does not access a timer, the framebuffer,
the keypad or I does the same with any other contents of it, and carries them through. -/

namespace Sys2Proof.Machine

/-! ## Replacing contents -/

/-- New contents for some of the pieces of state an instruction may leave unread. -/
structure Replacement where
  dt : Option Byte := none
  st : Option Byte := none
  fb : Option Framebuffer := none
  key : Option (Vector Bool 16) := none
  index : Option Word := none

/-- The state with the new contents, and its own where there are none. -/
def State.replace (p : Replacement) (s : State) : State :=
  { s with
    dt := p.dt.getD s.dt
    st := p.st.getD s.st
    fb := p.fb.getD s.fb
    key := p.key.getD s.key
    i := p.index.getD s.i }

/-- Only what the instruction neither reads nor writes is replaced (10_state.md R118). -/
structure Replacement.Unaccessed (p : Replacement) (i : Instr) : Prop where
  dt : p.dt ≠ none → ∀ x, i ≠ .ldVDt x ∧ i ≠ .ldDtV x
  st : p.st ≠ none → ∀ x, i ≠ .ldStV x
  fb : p.fb ≠ none → ∀ x y n, i ≠ .cls ∧ i ≠ .drw x y n
  key : p.key ≠ none → ∀ x, i ≠ .skp x ∧ i ≠ .sknp x ∧ i ≠ .ldVKey x
  index : p.index ≠ none → ∀ nnn x y n, i ≠ .ldI nnn ∧ i ≠ .addIV x ∧ i ≠ .ldFV x ∧ i ≠ .drw x y n ∧ i ≠ .ldBV x ∧
    i ≠ .ldMiV x ∧ i ≠ .ldVMi x

section
variable (p : Replacement) (s : State)

theorem State.skipIf_replace (c : Bool) : (s.replace p).skipIf c = (s.skipIf c).replace p := by
  cases c <;> rfl

/-- The fault record holds none of the replaced pieces. -/
theorem raise_replace (c : FaultCode) (a : Option Nat) :
    raise (s.replace p) c a = mapNext (State.replace p) (raise s c a) := rfl

theorem unlessFault_replace (e : Option (FaultCode × Nat)) {s' u' : State} (h : u' = s'.replace p) :
    unlessFault e (s.replace p) u' = mapNext (State.replace p) (unlessFault e s s') :=
  h ▸ unlessFault_mapNext _ e s s' (raise_replace p s)

theorem State.key_replace (h : p.key = none) : (s.replace p).key = s.key := by
  rw [State.replace, h, Option.getD_none]

theorem skipOnKey_replace (x : Reg) (pressed : Bool) (h : p.key = none) :
    skipOnKey x pressed (s.replace p) = mapNext (State.replace p) (skipOnKey x pressed s) := by
  have hreg : (s.replace p).reg x = s.reg x := rfl
  have hkey (k) : (s.replace p).keyDown k = s.keyDown k := congrArg (·[k.val]) (s.key_replace p h)
  unfold skipOnKey
  rw [hreg]
  cases keyIndex (s.reg x) with
  | none => exact raise_replace p s _ _
  | some k =>
    simp only [hkey]
    exact congrArg Host.Outcome.next (s.skipIf_replace p _)

theorem execLdVKey_replace (x : Reg) (h : p.key = none) :
    execLdVKey x (s.replace p) = mapNext (State.replace p) (execLdVKey x s) := by
  have hkey : (s.replace p).lowestKey = s.lowestKey := congrArg (·.toList.findIdx? id) (s.key_replace p h)
  unfold execLdVKey
  rw [hkey]
  cases s.lowestKey <;> rfl

theorem execRet_replace : execRet (s.replace p) = mapNext (State.replace p) (execRet s) := by
  have hsp : (s.replace p).sp = s.sp := rfl
  unfold execRet
  rw [hsp]
  split <;> rfl

theorem execCall_replace (nnn : Imm12) :
    execCall nnn (s.replace p) = mapNext (State.replace p) (execCall nnn s) := by
  have hsp : (s.replace p).sp = s.sp := rfl
  unfold execCall
  rw [hsp]
  split <;> rfl

end

/-- The execute phase commutes with replacing what the instruction does not access: the forms that can fault, skip or wait
by their own lemmas, each form that accesses a piece because that piece is not replaced, and the others because their one
update touches another field. -/
theorem exec_replace (p : Replacement) (s : State) {i : Instr} (h : p.Unaccessed i) :
    exec i (s.replace p) = mapNext (State.replace p) (exec i s) := by
  obtain ⟨dt, st, fb, key, index⟩ := p
  cases i with
  | ret => exact execRet_replace _ s
  | call nnn => exact execCall_replace _ s nnn
  | seVkk | sneVkk | seVV | sneVV => exact congrArg Host.Outcome.next (s.skipIf_replace _ _)
  | skp x => exact skipOnKey_replace _ s x true (by_contra fun hn => by simpa using h.key hn x)
  | sknp x => exact skipOnKey_replace _ s x false (by_contra fun hn => by simpa using h.key hn x)
  | ldVKey x => exact execLdVKey_replace _ s x (by_contra fun hn => by simpa using h.key hn x)
  | cls =>
    obtain rfl : fb = none := by_contra fun hn => by simpa using h.fb hn 0 0 0
    rfl
  | ldVDt x =>
    obtain rfl : dt = none := by_contra fun hn => by simpa using h.dt hn x
    rfl
  | ldDtV x =>
    obtain rfl : dt = none := by_contra fun hn => by simpa using h.dt hn x
    rfl
  | ldStV x =>
    obtain rfl : st = none := by_contra fun hn => by simpa using h.st hn x
    rfl
  | ldI nnn =>
    obtain rfl : index = none := by_contra fun hn => by simpa using h.index hn nnn 0 0 0
    rfl
  | addIV x =>
    obtain rfl : index = none := by_contra fun hn => by simpa using h.index hn 0 x 0 0
    rfl
  | ldFV x =>
    obtain rfl : index = none := by_contra fun hn => by simpa using h.index hn 0 x 0 0
    rfl
  | drw x y n =>
    obtain rfl : fb = none := by_contra fun hn => by simpa using h.fb hn x y n
    obtain rfl : index = none := by_contra fun hn => by simpa using h.index hn 0 x y n
    exact unlessFault_replace _ s _ rfl
  | ldBV x =>
    obtain rfl : index = none := by_contra fun hn => by simpa using h.index hn 0 x 0 0
    exact unlessFault_replace _ s _ rfl
  | ldMiV x =>
    obtain rfl : index = none := by_contra fun hn => by simpa using h.index hn 0 x 0 0
    exact unlessFault_replace _ s _ rfl
  | ldVMi x =>
    obtain rfl : index = none := by_contra fun hn => by simpa using h.index hn 0 x 0 0
    exact unlessFault_replace _ s _ rfl
  | jp | ldVkk | addVkk | ldVV | or | and | xor | addVV | sub | shr | subn | shl | jpV0 | rnd => rfl

/-- The next state carries the replacement through. -/
theorem exec_replace_next {p : Replacement} {i : Instr} {s t : State} (h : p.Unaccessed i) (ht : exec i s = .next t) :
    exec i (s.replace p) = .next (t.replace p) := by
  rw [exec_replace p s h, ht, mapNext_next]

/-- What is not replaced is unaccessed. -/
theorem Replacement.unaccessed_empty (i : Instr) : ({} : Replacement).Unaccessed i where
  dt h := absurd rfl h
  st h := absurd rfl h
  fb h := absurd rfl h
  key h := absurd rfl h
  index h := absurd rfl h

/-- Settles O22: `exec_replace_next` with one timer replaced; the timer writes overwrite what was replaced. -/
theorem timersAreTouchedByTheirInstructionsOnly : Obligations.TimersAreTouchedByTheirInstructionsOnly := by
  intro i s t b ht
  refine ⟨fun h => ?_, fun h => ?_, ?_, ?_⟩
  · exact exec_replace_next (p := { dt := some b }) { Replacement.unaccessed_empty i with dt := fun _ => h } ht
  · exact exec_replace_next (p := { st := some b }) { Replacement.unaccessed_empty i with st := fun _ => h } ht
  · rintro ⟨x, rfl⟩
    exact ht
  · rintro ⟨x, rfl⟩
    exact ht

/-- Settles O23: `exec_replace_next` with the framebuffer, the keypad or I replaced. -/
theorem unreadStateIsCarriedThrough : Obligations.UnreadStateIsCarriedThrough := by
  intro i s t ht
  refine ⟨fun fb h => ?_, fun key h => ?_, fun w h => ?_⟩
  · exact exec_replace_next (p := { fb := some fb }) { Replacement.unaccessed_empty i with fb := fun _ => h } ht
  · exact exec_replace_next (p := { key := some key }) { Replacement.unaccessed_empty i with key := fun _ => h } ht
  · exact exec_replace_next (p := { index := some w }) { Replacement.unaccessed_empty i with index := fun _ => h } ht

end Sys2Proof.Machine
end

section
/-! Faults with an address or an index, the key skips, CALL and RET, JP V0, and the cycles that write a timer
(41_control_flow.md, 60_exceptions.md R713, R714, 70_reset_and_hazards.md R812). -/

namespace Sys2Proof.Machine

/-! ## The key skips -/

theorem skipOnKey_of_key (x : Reg) (pressed : Bool) (s : State) {k : Fin 16} (h : (s.reg x).toNat = k.val) :
    skipOnKey x pressed s = .next { s with pc := if s.key[k.val] = pressed then s.pc + 2#16 else s.pc } := by
  rw [skipOnKey, keyIndex_of_lt _ k h]
  simp only [State.skipIf_eq, State.keyDown, beq_iff_eq]

theorem skipOnKey_of_outside (x : Reg) (pressed : Bool) (s : State) (h : 15 < (s.reg x).toNat) :
    skipOnKey x pressed s = raise s .keyIndexOutOfRange (some (s.reg x).toNat) := by
  rw [skipOnKey, keyIndex_of_gt _ h]

/-- A key index in the record is the register widened with zeros (10_state.md R114). -/
theorem keyIndex_addr (v : Byte) : (some v.toNat).map (BitVec.ofNat 17) = some (v.setWidth 17) := by
  rw [Option.map_some, BitVec.ofNat_toNat]

/-- Settles O31: a key by `skipOnKey_of_key`, an index above 15 by `skipOnKey_of_outside`. -/
theorem keySkipResults : Obligations.KeySkipResults := by
  refine fun x s => ⟨fun k hk => ⟨skipOnKey_of_key x true s hk, skipOnKey_of_key x false s hk⟩, fun h => ?_⟩
  refine ⟨s.rewind.fetched, ?_, ?_⟩
  · rw [← keyIndex_addr, ← raise_eq]
    exact skipOnKey_of_outside x true s h
  · rw [← keyIndex_addr, ← raise_eq]
    exact skipOnKey_of_outside x false s h

/-! ## The faults with an address or an index -/

/-- A fault after the fetch, as one update of the state at the start of the cycle (60_exceptions.md R701, R704). -/
theorem State.latch_of_fetchable (s : State) (c : FaultCode) (a : Option Nat) (h : s.pc.toNat + 1 < 4096) :
    s.latch c a = { s with
      halt := some ⟨c, s.pc, some (s.mem.read s.pc.toNat ++ s.mem.read (s.pc.toNat + 1)), a.map (BitVec.ofNat 17)⟩ } := by
  rw [← s.fetched_of_fetchable h]; rfl

/-- Settles O13: both skips raise by `skipOnKey_of_outside`. -/
theorem keyIndexFaults : Obligations.KeyIndexFaults := by
  rintro s op x hrun hpc rfl hdec h
  rw [← keyIndex_addr, ← s.latch_of_fetchable _ _ hpc]
  obtain hdec | hdec := hdec
  · exact step_of_raise s _ _ _ hrun hpc hdec (skipOnKey_of_outside x true s.advance h)
  · exact step_of_raise s _ _ _ hrun hpc hdec (skipOnKey_of_outside x false s.advance h)

/-- A store that reaches the font table is in memory throughout, so the font check names its lowest address there (R720). -/
theorem writeFault_of_font {base n a : Nat} (hn : n ≤ 16) (hlo : base ≤ a) (hhi : a < base + n)
    (hfont : 0x050 ≤ a ∧ a ≤ 0x09F) (hlow : ∀ b, base ≤ b → b < a → ¬ (0x050 ≤ b ∧ b ≤ 0x09F)) :
    writeFault base n = some (.protectedWrite, a) := by
  have hbad : firstBad inFont base n = some a := (firstBad_eq_some inFont base n a).2
    ⟨hlo, hhi, (inFont_eq_true a).2 hfont, fun b h1 h2 => (inFont_eq_false b).2 (hlow b h1 h2)⟩
  exact (writeFault_eq_some base n a _).2 (.inr ⟨.inr (by omega), rfl, hbad⟩)

theorem exec_ldBV_of_fault {x : Reg} {s : State} {c : FaultCode} {a : Nat}
    (h : writeFault s.i.toNat 3 = some (c, a)) : exec (.ldBV x) s = raise s c (some a) := by
  rw [exec, execLdBV, h, unlessFault_some]

theorem exec_ldMiV_of_fault {x : Reg} {s : State} {c : FaultCode} {a : Nat}
    (h : writeFault s.i.toNat (x.val + 1) = some (c, a)) : exec (.ldMiV x) s = raise s c (some a) := by
  rw [exec, execLdMiV, blockCount, h, unlessFault_some]

/-- Settles O14: both stores raise what `writeFault_of_font` finds. -/
theorem protectedWriteFaults : Obligations.ProtectedWriteFaults := by
  rintro s op x n a hrun hpc rfl hform hlo hhi hf1 hf2 hlow
  have hlatch := s.latch_of_fetchable .protectedWrite (some a) hpc
  rw [Option.map_some] at hlatch
  rw [← hlatch]
  obtain ⟨hdec, rfl⟩ | ⟨hdec, rfl⟩ := hform
  · have hfault := writeFault_of_font (by decide) hlo hhi ⟨hf1, hf2⟩ hlow
    exact step_of_raise s _ _ _ hrun hpc hdec (exec_ldBV_of_fault (s := s.advance) hfault)
  · have hfault := writeFault_of_font x.isLt hlo hhi ⟨hf1, hf2⟩ hlow
    exact step_of_raise s _ _ _ hrun hpc hdec (exec_ldMiV_of_fault (s := s.advance) hfault)

/-! ## CALL, RET and JP V0 -/

theorem exec_call_of_room (nnn : Imm12) {s : State} (h : s.sp ≠ 16) :
    exec (.call nnn) s = .next ((s.push s.pc).setPc (zext16 nnn)) := if_neg h

theorem exec_ret_of_nonempty {s : State} (h : s.sp ≠ 0) : exec .ret s = .next (s.pop.setPc s.top) := if_neg h

/-- Settles O26: the pop by `exec_ret_of_nonempty`, the fatal depth by `exec_ret_of_empty`. -/
theorem retResult : Obligations.RetResult := by
  refine ⟨decodeWord_ret, fun s => ⟨fun h => ?_, fun h => ?_⟩⟩
  · have hsp : s.sp ≠ 0 := fun h0 => h (congrArg Fin.val h0)
    exact ⟨_, exec_ret_of_nonempty hsp, depth_pred s.sp hsp, rfl, rfl⟩
  · exact ⟨_, _, exec_ret_of_empty s (Fin.ext h), rfl⟩

/-- Settles O28: the push by `exec_call_of_room`, the fatal depth by `exec_call_of_full`. -/
theorem callResult : Obligations.CallResult := by
  refine ⟨decodeWord_call, fun nnn s => ⟨fun h => ?_, fun h => ?_⟩⟩
  · have hsp : s.sp ≠ 16 := fun h16 => h (congrArg Fin.val h16)
    refine ⟨_, exec_call_of_room nnn hsp, fun j => ?_, depth_succ s.sp hsp, zext16_toNat nnn, rfl⟩
    simp [Vector.getElem_setIfInBounds, eq_comm]
  · exact ⟨_, _, exec_call_of_full nnn s (Fin.ext h), rfl⟩

/-- Settles O29: the slot RET reads is the one CALL wrote. -/
theorem callThenRetComesBack : Obligations.CallThenRetComesBack := by
  intro nnn s t u hrun hcall ht hsp hstack
  have hroom : s.sp ≠ 16 := by
    intro hfull
    rw [exec_call_of_full nnn s hfull] at hcall
    exact raise_halt_ne_none hcall ht
  rw [exec_call_of_room nnn hroom] at hcall; cases hcall
  have hdepth : u.sp.val = s.sp.val + 1 := by rw [hsp]; exact depth_succ s.sp hroom
  have hnonempty : u.sp ≠ 0 := fun h0 => by simp [h0] at hdepth
  have htop : u.top = s.pc := by
    simp [State.top, hstack, hdepth]
  have hpop : u.sp - 1 = s.sp := Fin.ext (by rw [depth_pred u.sp hnonempty, hdepth]; rfl)
  rw [exec_ret_of_nonempty hnonempty, htop]
  exact congrArg (fun p => Host.Outcome.next { u with sp := p, pc := s.pc }) hpop

/-- Settles O32: the sum of a 12-bit and an 8-bit value does not reach 2^16. -/
theorem jpV0Result : Obligations.JpV0Result := by
  refine fun nnn s => ⟨_, rfl, ?_, rfl⟩
  have hn := nnn.isLt
  have hv := (s.reg 0).isLt
  simp only [State.setPc_fields, State.regWord, BitVec.toNat_add, zext16_toNat, BitVec.toNat_setWidth]
  omega

/-! ## The cycles that write a timer -/

/-- A cycle whose execute phase leaves the latch empty ends with the tick. -/
theorem step_of_effect {s u : State} {i : Instr} (hrun : s.halt = none) (hpc : s.pc.toNat + 1 < 4096)
    (hdec : decodeWord (s.mem.read s.pc.toNat ++ s.mem.read (s.pc.toNat + 1)) = .ok i)
    (hexec : exec i s.advance = .next u) (hu : u.halt = none) : step s = .next u.tick := by
  rw [step_of_decoded s i hrun hpc hdec, hexec, finish, State.endCycle_of_running u hu]

/-- Settles O25: the cycle is `step_of_effect`, and the tick at its end is `tickTimer_toNat`. -/
theorem timerWriteTicksInTheSameCycle : Obligations.TimerWriteTicksInTheSameCycle := by
  refine fun s x hrun hpc => ⟨fun hdec => ?_, fun hdec => ?_⟩
  · refine ⟨(s.advance.setDt (s.reg x)).tick, ?_, tickTimer_toNat _, tickTimer_toNat _, rfl⟩
    exact step_of_effect hrun hpc hdec rfl hrun
  · refine ⟨(s.advance.setSt (s.reg x)).tick, ?_, tickTimer_toNat _, tickTimer_toNat _, rfl⟩
    exact step_of_effect hrun hpc hdec rfl hrun

end Sys2Proof.Machine
end

section
/-! The register and index results (42_alu.md, 43_load_move.md R503, 45_fx_family.md R610 to R615): the value of every
register after each form, on exact numbers. -/

namespace Sys2Proof.Machine

/-! ## Flags as numbers -/

theorem flagByte_toNat (f : Bool) : (flagByte f).toNat = if f then 1 else 0 := by
  cases f <;> rfl

/-- The value of every register after a write of Vx and then of the flag. -/
theorem State.reg_setRegFlag_toNat (s : State) (x r : Reg) (b : Byte) (f : Bool) :
    ((s.setRegFlag x b f).reg r).toNat =
      if r = 15 then (if f then 1 else 0) else if r = x then b.toNat else (s.reg r).toNat := by
  rw [State.reg_setRegFlag, apply_ite BitVec.toNat, apply_ite BitVec.toNat, flagByte_toNat]

/-! ## Arithmetic and logic -/

/-- Settles O33: one register write, of the sum modulo 256. -/
theorem addImmediateResult : Obligations.AddImmediateResult := by
  refine fun x kk s => ⟨_, rfl, fun r => ?_, s.setReg_frame x _⟩
  rw [State.reg_setReg, apply_ite BitVec.toNat, BitVec.toNat_add]

/-- Settles O34: one register write, whose bits are those of the operation. -/
theorem logicResults : Obligations.LogicResults := by
  refine fun x y s => ⟨⟨_, rfl, fun r b => ?_, s.setReg_frame x _⟩, ⟨_, rfl, fun r b => ?_, s.setReg_frame x _⟩,
    ⟨_, rfl, fun r b => ?_, s.setReg_frame x _⟩⟩
  · rw [State.reg_setReg, apply_ite (BitVec.getLsbD · b), BitVec.getLsbD_or]
  · rw [State.reg_setReg, apply_ite (BitVec.getLsbD · b), BitVec.getLsbD_and]
  · rw [State.reg_setReg, apply_ite (BitVec.getLsbD · b), BitVec.getLsbD_xor]

/-- Settles O35: the carry is `carryOut`, which compares the exact sum. -/
theorem addRegistersResult : Obligations.AddRegistersResult := by
  refine ⟨decodeWord_addVV, fun x y s => ⟨_, rfl, fun r => ?_, s.setRegFlag_frame x _ _⟩⟩
  simp only [State.reg_setRegFlag_toNat, carryOut, decide_eq_true_eq, BitVec.toNat_add]

/-- The difference modulo 256 over the integers. -/
theorem toNat_sub_int (a b : Byte) : ((a - b).toNat : Int) = (a.toNat - b.toNat : Int) % 256 := by
  have ha := a.isLt
  have hb := b.isLt
  rw [BitVec.toNat_sub]
  omega

/-- Settles O36: not-borrow is `noBorrow`, and `toNat_sub_int` is the difference, of Vx and Vy or of Vy and Vx. -/
theorem subtractResults : Obligations.SubtractResults := by
  refine ⟨⟨decodeWord_sub, decodeWord_subn⟩, fun x y s =>
    ⟨⟨_, rfl, fun r => ?_, s.setRegFlag_frame x _ _⟩, ⟨_, rfl, fun r => ?_, s.setRegFlag_frame x _ _⟩⟩⟩
  · simp only [State.reg_setRegFlag_toNat, noBorrow, decide_eq_true_eq, ← toNat_sub_int]
    push_cast; rfl
  · simp only [State.reg_setRegFlag_toNat, noBorrow, decide_eq_true_eq, ← toNat_sub_int]
    push_cast; rfl

theorem shiftedOutRight_toNat (v : Byte) : (if shiftedOutRight v then 1 else 0) = v.toNat % 2 := by
  simp only [shiftedOutRight, BitVec.getLsbD, Nat.testBit_zero, decide_eq_true_eq]
  split <;> omega

theorem shiftedOutLeft_toNat (v : Byte) : (if shiftedOutLeft v then 1 else 0) = v.toNat / 128 := by
  have hv := v.isLt
  simp only [shiftedOutLeft, BitVec.getLsbD, Nat.testBit_eq_decide_div_mod_eq, decide_eq_true_eq]
  split <;> omega

/-- Settles O37: the bit shifted out is the remainder or the carry, and the shift halves or doubles. -/
theorem shiftResults : Obligations.ShiftResults := by
  refine fun x y s =>
    ⟨⟨_, rfl, fun r => ?_, s.setRegFlag_frame x _ _⟩, ⟨_, rfl, fun r => ?_, s.setRegFlag_frame x _ _⟩⟩
  · rw [State.reg_setRegFlag_toNat, shiftedOutRight_toNat, BitVec.toNat_ushiftRight, Nat.shiftRight_eq_div_pow]
  · rw [State.reg_setRegFlag_toNat, shiftedOutLeft_toNat, BitVec.toNat_shiftLeft, Nat.shiftLeft_eq]

/-! ## Random, timers, index -/

/-- Settles O40: one register write of the masked free byte, and the draw count. -/
theorem randomResult : Obligations.RandomResult :=
  fun x _ s => ⟨_, rfl, fun r => s.reg_setReg x r _, rfl⟩

/-- Settles O44: one register write, or one timer write. -/
theorem timerMoveResults : Obligations.TimerMoveResults :=
  fun x s => ⟨⟨_, rfl, fun r => s.reg_setReg x r s.dt, s.setReg_frame x s.dt⟩, rfl, rfl⟩

theorem State.regWord_toNat (s : State) (x : Reg) : (s.regWord x).toNat = (s.reg x).toNat :=
  BitVec.toNat_setWidth_of_le (by decide)

/-- Settles O46: the register is widened with zeros, and the sum is the word's. -/
theorem addIndexResult : Obligations.AddIndexResult := by
  refine fun x s => ⟨_, rfl, ?_, rfl⟩
  rw [(s.setI_fields _).2.2.1, BitVec.toNat_add, State.regWord_toNat]

/-- The glyph of any byte's digit lies within 16 bits (45_fx_family.md R615). -/
theorem glyphAddress_toNat {d : Nat} (h : d < 256) : (glyphAddress d).toNat = 0x050 + 5 * d :=
  Nat.mod_eq_of_lt (by show 0x050 + 5 * d < 2 ^ 16; omega)

theorem fontDigit_of_le {v : Byte} (h : v.toNat ≤ 15) : fontDigit v = v.toNat := if_pos h

theorem fontDigit_of_mask {v : Byte} (h : 15 < v.toNat) (hc : Config.fontHighDigit = .mask) :
    fontDigit v = v.toNat % 16 := by
  rw [fontDigit, if_neg (Nat.not_le_of_lt h), hc]
  exact Nat.and_two_pow_sub_one_eq_mod v.toNat 4

theorem fontDigit_of_linear {v : Byte} (h : 15 < v.toNat) (hc : Config.fontHighDigit = .linear) :
    fontDigit v = v.toNat := by
  rw [fontDigit, if_neg (Nat.not_le_of_lt h), hc]

/-- Settles O47: the digit under each value of the parameter, at `glyphAddress_toNat`. -/
theorem fontAddressResult : Obligations.FontAddressResult := by
  refine fun x s => ⟨s.setI (glyphAddress (fontDigit (s.reg x))), rfl, rfl, fun h => ?_, fun h hc => ?_, fun h hc => ?_⟩
  · rw [fontDigit_of_le h]
    exact glyphAddress_toNat (s.reg x).isLt
  · rw [fontDigit_of_mask h hc]
    exact glyphAddress_toNat (by omega)
  · rw [fontDigit_of_linear h hc]
    exact glyphAddress_toNat (s.reg x).isLt

end Sys2Proof.Machine
end

section
/-! Drawing and block transfers (44_display.md R551, R552, 45_fx_family.md R616 to R618): the effect behind the address
check, and what it leaves. -/

namespace Sys2Proof.Machine

/-! ## Behind the check -/

/-- A checked access that did not fault had its effect. -/
theorem unlessFault_of_running {f : Option (FaultCode × Nat)} {s s' t : State} (h : unlessFault f s s' = .next t)
    (ht : t.halt = none) : f = none ∧ t = s' := by
  obtain heffect | ⟨c, a, -, hraise⟩ := unlessFault_cases h
  · exact heffect
  · exact absurd ht (raise_halt_ne_none hraise)

/-- A store of n bytes on one side of the font table is checked. -/
theorem writeFault_of_outsideFont {base n : Nat} (hmem : base + n ≤ 4096)
    (hfont : base + n ≤ 0x050 ∨ 0x09F < base) : writeFault base n = none :=
  (writeFault_eq_none base n).2 ⟨.inr hmem, by omega⟩

/-! ## Drawing -/

/-- The bits of the sprite DRW draws, each with the cell it lands on (R551). -/
def State.spriteCells (s : State) (x y : Reg) (n : Fin 16) : List (Bool × Fin 32 × Fin 64) :=
  spriteBits s.mem s.i.toNat n.val (s.spriteColumn x) (s.spriteRow y)

/-- The state after DRW, its bytes all memory. -/
def State.drawAtI (s : State) (x y : Reg) (n : Fin 16) : State :=
  let drawn := drawSprite s.mem s.i.toNat n.val (s.spriteColumn x) (s.spriteRow y) s.fb
  (s.setFb drawn.1).setFlag drawn.2

theorem exec_drw (x y : Reg) (n : Fin 16) (s : State) :
    exec (.drw x y n) s = unlessFault (readFault s.i.toNat n.val) s (s.drawAtI x y n) := rfl

section
variable (s : State) (x y : Reg) (n : Fin 16)

theorem State.pixel_drawAtI (r : Fin 32) (c : Fin 64) : (s.drawAtI x y n).fb.pixel r c =
    if (true, r, c) ∈ s.spriteCells x y n then !s.fb.pixel r c else s.fb.pixel r c :=
  (drawSprite_spec _ _ _ _ _ s.fb (by omega)).1 r c

/-- VF is the collision: a lit pixel went out. -/
theorem State.flag_drawAtI : ∃ hit, (s.drawAtI x y n).reg 15 = flagByte hit ∧
    (hit = true ↔ ∃ r c, (true, r, c) ∈ s.spriteCells x y n ∧ s.fb.pixel r c = true) :=
  ⟨_, by rw [State.drawAtI, State.reg_setFlag, if_pos rfl], (drawSprite_spec _ _ _ _ _ s.fb (by omega)).2⟩

theorem State.reg_drawAtI {r : Reg} (h : r ≠ 15) : (s.drawAtI x y n).reg r = s.reg r := by
  rw [State.drawAtI, State.reg_setFlag, if_neg h, State.reg_setFb]

/-- With coordinates that are no VF, the sprite of the next draw lies on the same cells. -/
theorem State.spriteCells_drawAtI (hx : x ≠ 15) (hy : y ≠ 15) :
    (s.drawAtI x y n).spriteCells x y n = s.spriteCells x y n := by
  have hcol : (s.drawAtI x y n).spriteColumn x = s.spriteColumn x := by
    rw [State.spriteColumn, s.reg_drawAtI x y n hx, State.spriteColumn]
  have hrow : (s.drawAtI x y n).spriteRow y = s.spriteRow y := by
    rw [State.spriteRow, s.reg_drawAtI x y n hy, State.spriteRow]
  rw [State.spriteCells, hcol, hrow]
  rfl

end

/-- Settles O42: `State.pixel_drawAtI` and `State.flag_drawAtI`, with the cells spelled out by `mem_spriteBits`. -/
theorem drawResult : Obligations.DrawResult := by
  intro x y n s hmem lands
  have hlands (r c) : lands r c ↔ (true, r, c) ∈ s.spriteCells x y n := (mem_spriteBits _ _ _ _ _ r c).symm
  have hexec : exec (.drw x y n) s = .next (s.drawAtI x y n) := by
    rw [exec_drw, (readFault_eq_none _ _).2 hmem, unlessFault_none]
  obtain ⟨hit, hflag, hhit⟩ := s.flag_drawAtI x y n
  simp only [← hlands] at hhit
  refine ⟨_, hexec, fun r c => ?_, fun h => ?_, fun h => ?_, fun r => s.reg_drawAtI x y n, rfl⟩
  · rw [State.pixel_drawAtI, hlands]
    exact ⟨fun h => if_pos h, fun h => if_neg h⟩
  · rw [hflag, hhit.2 h]; rfl
  · rw [hflag, Bool.eq_false_iff.2 (mt hhit.1 h)]; rfl

/-- The second draw flips back what the first flipped. -/
theorem State.fb_drawAtI_drawAtI (s : State) {x y : Reg} (n : Fin 16) (hx : x ≠ 15) (hy : y ≠ 15) :
    ((s.drawAtI x y n).drawAtI x y n).fb = s.fb := by
  refine Framebuffer.ext_pixel _ _ fun r c => ?_
  rw [State.pixel_drawAtI, s.spriteCells_drawAtI x y n hx hy, State.pixel_drawAtI]
  split <;> simp

/-- On a clear framebuffer a draw changes something exactly when it leaves a lit pixel where it drew. -/
theorem State.fb_drawAtI_ne_iff (s : State) (x y : Reg) (n : Fin 16) (hclear : ∀ r c, s.fb.pixel r c = false) :
    (s.drawAtI x y n).fb ≠ s.fb ↔
      ∃ r c, (true, r, c) ∈ s.spriteCells x y n ∧ (s.drawAtI x y n).fb.pixel r c = true := by
  constructor
  · intro hne
    by_contra hnone
    push Not at hnone
    refine hne (Framebuffer.ext_pixel _ _ fun r c => ?_)
    rw [hclear]
    by_cases hin : (true, r, c) ∈ s.spriteCells x y n
    · exact Bool.eq_false_iff.2 (hnone r c hin)
    · rw [State.pixel_drawAtI, if_neg hin, hclear]
  · rintro ⟨r, c, -, hlit⟩ heq
    rw [heq, hclear] at hlit
    cases hlit

theorem flagByte_eq_one (f : Bool) : flagByte f = 1#8 ↔ f = true := by
  cases f <;> decide

/-- Settles O43: neither check faults, so both draws have the effect `State.drawAtI`, on the same cells. -/
theorem drawingTwiceErases : Obligations.DrawingTwiceErases := by
  intro x y n s t u hx hy hrun hfirst ht hsecond
  obtain ⟨hok, rfl⟩ := unlessFault_of_running ((exec_drw x y n s).symm.trans hfirst) ht
  have hu : exec (.drw x y n) (s.drawAtI x y n) = .next ((s.drawAtI x y n).drawAtI x y n) := by
    rw [exec_drw, show (s.drawAtI x y n).i = s.i from rfl, hok, unlessFault_none]
  rw [hu] at hsecond; cases hsecond
  refine ⟨s.fb_drawAtI_drawAtI n hx hy, fun hclear => ?_⟩
  obtain ⟨hit, hflag, hhit⟩ := (s.drawAtI x y n).flag_drawAtI x y n
  rw [hflag, flagByte_eq_one, hhit, s.fb_drawAtI_ne_iff x y n hclear, s.spriteCells_drawAtI x y n hx hy]

/-! ## Block transfers -/

theorem exec_ldBV (x : Reg) (s : State) :
    exec (.ldBV x) s = unlessFault (writeFault s.i.toNat 3) s (s.storeAtI (bcdDigits (s.reg x))) := rfl

theorem exec_ldMiV (x : Reg) (s : State) : exec (.ldMiV x) s =
    unlessFault (writeFault s.i.toNat (x.val + 1)) s (s.storeAtI (s.firstRegs (blockCount x))) := rfl

theorem exec_ldVMi (x : Reg) (s : State) : exec (.ldVMi x) s =
    unlessFault (readFault s.i.toNat (x.val + 1)) s (s.loadFromI (blockCount x)) := rfl

/-- A stored byte is read back at its address. -/
theorem State.read_storeAtI (s : State) {bs : List Byte} {k : Nat} (h : k < bs.length) :
    (s.storeAtI bs).mem.read (s.i.toNat + k) = bs[k] :=
  Memory.read_writeBytes_inside _ _ _ _ h

/-- Settles O48: the three digits are read back one by one, each below 256. -/
theorem bcdResult : Obligations.BcdResult := by
  intro x s hmem hfont
  have hv := (s.reg x).isLt
  have hok : writeFault s.i.toNat 3 = none := writeFault_of_outsideFont (by omega) (by omega)
  have hread (k : Nat) (hk : k < 3) := s.read_storeAtI (bs := bcdDigits (s.reg x)) (k := k) hk
  refine ⟨s.storeAtI (bcdDigits (s.reg x)), by rw [exec_ldBV, hok, unlessFault_none], ?_, ?_, ?_, fun a ha => ?_, rfl⟩
  · exact (congrArg BitVec.toNat (hread 0 (by decide))).trans (Nat.mod_eq_of_lt (by omega))
  · exact (congrArg BitVec.toNat (hread 1 (by decide))).trans (Nat.mod_eq_of_lt (by omega))
  · exact (congrArg BitVec.toNat (hread 2 (by decide))).trans (Nat.mod_eq_of_lt (by omega))
  · exact Memory.read_writeBytes_outside _ _ _ _ (show a < s.i.toNat ∨ s.i.toNat + 3 ≤ a by omega)

/-- Byte I + k of a block store is Vk. -/
theorem State.read_storeRegs (s : State) {x k : Reg} (h : k ≤ x) :
    (s.storeAtI (s.firstRegs (blockCount x))).mem.read (s.i.toNat + k.val) = s.reg k := by
  have hk : k.val < (s.firstRegs (blockCount x)).length := by
    rw [s.length_firstRegs_blockCount]
    exact Nat.lt_succ_of_le h
  rw [s.read_storeAtI hk, s.getElem_firstRegs, State.reg_eq]

/-- Settles O49: `State.read_storeRegs` inside the block, `Memory.read_writeBytes_outside` around it. -/
theorem blockStoreResult : Obligations.BlockStoreResult := by
  intro x s hmem hfont
  have hok : writeFault s.i.toNat (x.val + 1) = none := writeFault_of_outsideFont (by omega) (by omega)
  refine ⟨_, by rw [exec_ldMiV, hok, unlessFault_none], fun k hk => s.read_storeRegs hk, fun a ha => ?_, rfl⟩
  refine Memory.read_writeBytes_outside _ _ _ _ ?_
  rw [s.length_firstRegs_blockCount]
  omega

/-- Vk of a block load is byte I + k. -/
theorem State.reg_loadRegs (s : State) (x k : Reg) : (s.loadFromI (blockCount x)).reg k =
    if k ≤ x then s.mem.read (s.i.toNat + k.val) else s.reg k := by
  rw [State.reg_loadFromI]
  exact if_congr Nat.lt_succ_iff rfl rfl

/-- Settles O50: the check passes, and the registers are those of `State.reg_loadRegs`. -/
theorem blockLoadResult : Obligations.BlockLoadResult := by
  intro x s hmem
  have hok : readFault s.i.toNat (x.val + 1) = none := (readFault_eq_none _ _).2 (.inr hmem)
  exact ⟨_, by rw [exec_ldVMi, hok, unlessFault_none], s.reg_loadRegs x, rfl⟩

/-- A block that was stored is memory, so it can be loaded. -/
theorem readFault_of_writeFault {base n : Nat} (h : writeFault base n = none) : readFault base n = none :=
  (readFault_eq_none base n).2 ((writeFault_eq_none base n).1 h).1

/-- Settles O51: the load's check follows from the store's, and each byte it reads is the register stored there. -/
theorem blockStoreThenLoad : Obligations.BlockStoreThenLoad := by
  intro x s t u hrun hstore ht hmem hindex
  obtain ⟨hok, rfl⟩ := unlessFault_of_running ((exec_ldMiV x s).symm.trans hstore) ht
  have hi : u.i = s.i := hindex
  refine ⟨_, by rw [exec_ldVMi, hi, readFault_of_writeFault hok, unlessFault_none], fun k => ?_, rfl⟩
  rw [State.reg_loadRegs, hmem, hi]
  split
  · exact s.read_storeRegs ‹_›
  · rfl

/-- Settles O52: the bytes at I and I + 1 are V0 and V1, and both are memory. -/
theorem storedBytesAreFetched : Obligations.StoredBytesAreFetched := by
  intro x s t hrun hstore ht hx hpc
  obtain ⟨hok, rfl⟩ := unlessFault_of_running ((exec_ldMiV x s).symm.trans hstore) ht
  have hx' : 1 ≤ x.val := hx
  have hmem := ((writeFault_eq_none _ _).1 hok).1
  rw [State.fetch_ok _ (by rw [hpc]; omega), hpc, ← s.read_storeRegs hx, ← s.read_storeRegs (Fin.zero_le x)]
  rfl

end Sys2Proof.Machine
end
